-- ==== Sys2Proof/Word.lean ====
section
/-! DEFINITION. The one word type of the core and its readings (spec/00_scope.md R6, R8, R9). -/

namespace Sys2Proof

/-- An 8-bit pattern, `bits8` of R9: every register, memory cell, operand and address. -/
abbrev Byte := BitVec 8

/-- `uint(v)` of R9: the pattern read as an unsigned integer, 0..255. -/
abbrev uint (v : Byte) : Nat := v.toNat

/-- `sint(v)` of R9: the pattern read as a two's-complement integer, -128..127. -/
abbrev sint (v : Byte) : Int := v.toInt

/-- `bits8(n)` of R9: the pattern of `n` taken modulo 256. -/
abbrev bits8 (n : Nat) : Byte := BitVec.ofNat 8 n

end Sys2Proof
end

