-- ==== Sys2Proof/Syntax.lean ====
section
/-! DEFINITION. The instruction forms (spec/30_encoding.md R74) and the instructions the decoder yields: one constructor
of `Instr` for each row of spec/opcode_table.json. -/

namespace Sys2Proof

/-- The 19 instruction forms of R74, in its order. -/
inductive Form where
  | nop | movAccA | movAAcc | movAccCte | movAccAtDptr | movDptrAcc | movAtDptrAcc
  | invAcc | andAccA | addAccA
  | jmp | jz | jn | jc | call | ret
  | shlAcc | shrAcc | halt
deriving DecidableEq, Repr

/-- Every form once, in the order of R74. -/
def Form.all : List Form :=
  [.nop, .movAccA, .movAAcc, .movAccCte, .movAccAtDptr, .movDptrAcc, .movAtDptrAcc,
   .invAcc, .andAccA, .addAccA, .jmp, .jz, .jn, .jc, .call, .ret, .shlAcc, .shrAcc, .halt]

/-- An instruction. The only operand the ISA has is the byte `imm8` of format F2 (R70, R73). -/
inductive Instr where
  /-- NOP (R120). -/
  | nop
  /-- MOV ACC,A (R121). -/
  | movAccA
  /-- MOV A,ACC (R122). -/
  | movAAcc
  /-- MOV ACC,CTE (R123). -/
  | movAccCte (imm8 : Byte)
  /-- MOV ACC,[DPTR] (R125). -/
  | movAccAtDptr
  /-- MOV DPTR,ACC (R126). -/
  | movDptrAcc
  /-- MOV [DPTR],ACC (R127). -/
  | movAtDptrAcc
  /-- INV ACC (R140). -/
  | invAcc
  /-- AND ACC,A (R141). -/
  | andAccA
  /-- ADD ACC,A (R143). -/
  | addAccA
  /-- JMP CTE (R160). -/
  | jmp (imm8 : Byte)
  /-- JZ CTE (R161). -/
  | jz (imm8 : Byte)
  /-- JN CTE (R162). -/
  | jn (imm8 : Byte)
  /-- JC CTE (R163). -/
  | jc (imm8 : Byte)
  /-- CALL CTE (R165). -/
  | call (imm8 : Byte)
  /-- RET (R166). -/
  | ret
  /-- SHL ACC (R146). -/
  | shlAcc
  /-- SHR ACC (R147). -/
  | shrAcc
  /-- HALT (R168). -/
  | halt
  /-- The table's last row: an opcode byte that selects no form (R77). -/
  | reserved (op : Byte)
deriving DecidableEq, Repr

/-- The two formats of R70, each with the instruction it makes: F1 has the opcode byte alone, F2 a second byte `imm8`. -/
inductive Format where
  | f1 (i : Instr)
  | f2 (mk : Byte → Instr)

end Sys2Proof
end

