-- ==== Sys2Proof/Config.lean ====
section
/-! DEFINITION. The parameters of spec/00_scope.md R7. They are configuration, not architectural state (R20). Their default
values stand in Sys2Proof/Decode.lean (`OpcodeMap.default`, `Config.default`). -/

namespace Sys2Proof

/-- `OPCODE_MAP` (R7, R76): the opcode byte of each form, as plain data. The source gives no byte value (N3, decision D1),
so the map is a parameter. R76 asks that it be injective: `OpcodeMap.Injective` in Sys2Proof/WellFormed.lean. -/
structure OpcodeMap where
  nop : Byte
  movAccA : Byte
  movAAcc : Byte
  movAccCte : Byte
  movAccAtDptr : Byte
  movDptrAcc : Byte
  movAtDptrAcc : Byte
  invAcc : Byte
  andAccA : Byte
  addAccA : Byte
  jmp : Byte
  jz : Byte
  jn : Byte
  jc : Byte
  call : Byte
  ret : Byte
  shlAcc : Byte
  shrAcc : Byte
  halt : Byte
deriving DecidableEq, Repr

/-- The byte a map gives a form: `OPCODE_MAP(f)` of R102. -/
def OpcodeMap.code (m : OpcodeMap) : Form → Byte
  | .nop => m.nop
  | .movAccA => m.movAccA
  | .movAAcc => m.movAAcc
  | .movAccCte => m.movAccCte
  | .movAccAtDptr => m.movAccAtDptr
  | .movDptrAcc => m.movDptrAcc
  | .movAtDptrAcc => m.movAtDptrAcc
  | .invAcc => m.invAcc
  | .andAccA => m.andAccA
  | .addAccA => m.addAccA
  | .jmp => m.jmp
  | .jz => m.jz
  | .jn => m.jn
  | .jc => m.jc
  | .call => m.call
  | .ret => m.ret
  | .shlAcc => m.shlAcc
  | .shrAcc => m.shrAcc
  | .halt => m.halt

/-- `PC_OVERFLOW` (R7, R27, decision D5). -/
inductive PcOverflow where
  | fault
  | wrap
deriving DecidableEq, Repr

/-- `STACK_DEPTH` (R7, R31, decision D6): a natural number that is at least 1, or `Unbounded`. -/
inductive StackDepth where
  | unbounded
  | bounded (depth : Nat)
deriving DecidableEq, Repr

/-- The three parameters of R7. "No other parameter changes the core's behaviour." -/
structure Config where
  opcodeMap : OpcodeMap
  pcOverflow : PcOverflow
  stackDepth : StackDepth
deriving DecidableEq, Repr

end Sys2Proof
end

