-- ==== Sys2Proof/WellFormed.lean ====
section
/-! DEFINITION. Which parameters and which instructions the spec admits: R7, R76 and R77. -/

namespace Sys2Proof

/-- R76: "It must be injective, so no byte selects two forms." -/
abbrev OpcodeMap.Injective (m : OpcodeMap) : Prop := (Form.all.map m.code).Nodup

/-- R77: the byte selects no form. -/
abbrev OpcodeMap.SelectsNone (m : OpcodeMap) (op : Byte) : Prop := ∀ f ∈ Form.all, m.code f ≠ op

/-- R7: a finite `STACK_DEPTH` is at least 1. -/
abbrev StackDepth.Legal (d : StackDepth) : Prop := d ≠ .bounded 0

/-- R7: the parameter values the spec admits. -/
abbrev Config.WellFormed (c : Config) : Prop := c.opcodeMap.Injective ∧ c.stackDepth.Legal

/-- The instructions the encoding admits under an opcode map: every operand byte is legal (R77), and a reserved byte is
one that selects no form. -/
abbrev Instr.WellFormed (m : OpcodeMap) (i : Instr) : Prop :=
  match i with
  | .reserved op => m.SelectsNone op
  | .nop | .movAccA | .movAAcc | .movAccCte _ | .movAccAtDptr | .movDptrAcc | .movAtDptrAcc
  | .invAcc | .andAccA | .addAccA
  | .jmp _ | .jz _ | .jn _ | .jc _ | .call _ | .ret
  | .shlAcc | .shrAcc | .halt => True

end Sys2Proof
end

