-- ==== Sys2Proof/Decode.lean ====
section
/-! DEFINITION. The opcode map's default, the decoder, and after it the encoder (spec/30_encoding.md R70 to R77,
spec/40_step_cycle.md R102). -/

namespace Sys2Proof

/-- The default `OPCODE_MAP` of R75. It is the spec's own assignment (decision D1), NOT the original repository's
encoding: the source gives no byte values (N3). -/
def OpcodeMap.default : OpcodeMap where
  nop := 0x00
  movAccA := 0x01
  movAAcc := 0x02
  movAccCte := 0x03
  movAccAtDptr := 0x04
  movDptrAcc := 0x05
  movAtDptrAcc := 0x06
  invAcc := 0x07
  andAccA := 0x08
  addAccA := 0x09
  jmp := 0x0A
  jz := 0x0B
  jn := 0x0C
  jc := 0x0D
  call := 0x0E
  ret := 0x0F
  shlAcc := 0x10
  shrAcc := 0x11
  halt := 0x12

/-- The defaults of R7: `PC_OVERFLOW = Fault`, `STACK_DEPTH = Unbounded`, and the map of R75. -/
def Config.default : Config where
  opcodeMap := .default
  pcOverflow := .fault
  stackDepth := .unbounded

/-- The format of each form (R74), with the instruction it makes. It does not depend on the opcode map (R76). -/
def Form.format : Form → Format
  | .nop => .f1 .nop
  | .movAccA => .f1 .movAccA
  | .movAAcc => .f1 .movAAcc
  | .movAccCte => .f2 .movAccCte
  | .movAccAtDptr => .f1 .movAccAtDptr
  | .movDptrAcc => .f1 .movDptrAcc
  | .movAtDptrAcc => .f1 .movAtDptrAcc
  | .invAcc => .f1 .invAcc
  | .andAccA => .f1 .andAccA
  | .addAccA => .f1 .addAccA
  | .jmp => .f2 .jmp
  | .jz => .f2 .jz
  | .jn => .f2 .jn
  | .jc => .f2 .jc
  | .call => .f2 .call
  | .ret => .f1 .ret
  | .shlAcc => .f1 .shlAcc
  | .shrAcc => .f1 .shrAcc
  | .halt => .f1 .halt

/-- The length in bytes of a format (R70). -/
def Format.length : Format → Nat
  | .f1 _ => 1
  | .f2 _ => 2

/-- R102: the form whose opcode byte is `op`, or none (R77). Under an injective map (R76) it is unique. -/
def OpcodeMap.formOf (m : OpcodeMap) (op : Byte) : Option Form :=
  Form.all.find? (fun f => m.code f == op)

/-- The number of bytes of the instruction that starts with `op` (R71): the opcode byte alone fixes it. -/
def OpcodeMap.lengthAt (m : OpcodeMap) (op : Byte) : Nat :=
  match m.formOf op with
  | none => 1
  | some f => f.format.length

/-- The decoder (R71, R102) on an opcode byte and what a read of the operand byte gives: the operand counts only where
the form is F2, and a reserved byte decodes, alone, to `reserved`. -/
def decodeWith {ε : Type} (m : OpcodeMap) (op : Byte) (operand : Except ε Byte) : Except ε Instr :=
  match m.formOf op with
  | none => .ok (.reserved op)
  | some f =>
    match f.format with
    | .f1 i => .ok i
    | .f2 mk =>
      match operand with
      | .error e => .error e
      | .ok imm8 => .ok (mk imm8)

/-- Why a byte list holds no whole instruction. -/
inductive DecodeError where
  /-- The list is empty. -/
  | noOpcode
  /-- The opcode byte selects an F2 form and no byte follows it. -/
  | noOperand
deriving DecidableEq, Repr

/-- Decoding total on any bytes: the first instruction and the bytes after it, or the reason there is none. -/
def decode (m : OpcodeMap) : List Byte → Except DecodeError (Instr × List Byte)
  | [] => .error .noOpcode
  | op :: rest =>
    match decodeWith m op (match rest with | [] => .error DecodeError.noOperand | b :: _ => .ok b) with
    | .error e => .error e
    | .ok i => .ok (i, rest.drop (m.lengthAt op - 1))

/-- The form of an instruction; a reserved byte has none. -/
def Instr.form : Instr → Option Form
  | .nop => some .nop
  | .movAccA => some .movAccA
  | .movAAcc => some .movAAcc
  | .movAccCte _ => some .movAccCte
  | .movAccAtDptr => some .movAccAtDptr
  | .movDptrAcc => some .movDptrAcc
  | .movAtDptrAcc => some .movAtDptrAcc
  | .invAcc => some .invAcc
  | .andAccA => some .andAccA
  | .addAccA => some .addAccA
  | .jmp _ => some .jmp
  | .jz _ => some .jz
  | .jn _ => some .jn
  | .jc _ => some .jc
  | .call _ => some .call
  | .ret => some .ret
  | .shlAcc => some .shlAcc
  | .shrAcc => some .shrAcc
  | .halt => some .halt
  | .reserved _ => none

/-- The encoder, written from the rows of R75: the opcode byte the map gives, then `imm8` where the form is F2. -/
def encode (m : OpcodeMap) : Instr → List Byte
  | .nop => [m.nop]
  | .movAccA => [m.movAccA]
  | .movAAcc => [m.movAAcc]
  | .movAccCte imm8 => [m.movAccCte, imm8]
  | .movAccAtDptr => [m.movAccAtDptr]
  | .movDptrAcc => [m.movDptrAcc]
  | .movAtDptrAcc => [m.movAtDptrAcc]
  | .invAcc => [m.invAcc]
  | .andAccA => [m.andAccA]
  | .addAccA => [m.addAccA]
  | .jmp imm8 => [m.jmp, imm8]
  | .jz imm8 => [m.jz, imm8]
  | .jn imm8 => [m.jn, imm8]
  | .jc imm8 => [m.jc, imm8]
  | .call imm8 => [m.call, imm8]
  | .ret => [m.ret]
  | .shlAcc => [m.shlAcc]
  | .shrAcc => [m.shrAcc]
  | .halt => [m.halt]
  | .reserved op => [op]

/-- The bytes of a table word, in the order they lie in memory (R52: the opcode byte at the lower address): the word's
low `nbits` bits, the bits above them zero, up to the longest instruction (2 bytes, R70). -/
def tableWordBytes (nbits w : Nat) : Byte × Byte :=
  let v := w % 2 ^ nbits
  (bits8 v, bits8 (v / 256))

/-- The instruction the decoder reads, under the default opcode map, from a word numbered as the opcode table numbers it. -/
def decodeTableWord (nbits w : Nat) : Option Instr :=
  let b := tableWordBytes nbits w
  match decode .default [b.1, b.2] with
  | .ok (i, _) => some i
  | .error _ => none

end Sys2Proof
end

