-- ==== Sys2Proof/Machine/State.lean ====
section
/-! DEFINITION. The state of the core (spec/10_state.md R20) as plain data, the fault kinds (spec/60_exceptions.md R181), and
the state after reset (spec/70_reset_and_hazards.md R200, R201). -/

namespace Sys2Proof.Machine

/-- The fault kinds of R181. A fault is the error result of a step (R180): the step takes effect on `status` alone and
answers a NEXT state, whose `status` is `faulted kind`. No step answers `Host.Outcome.fault` (log entry 1). -/
inductive Fault where
  /-- Raised by RET on an empty call stack (R183). Safe: it is the source's own fault. -/
  | stackUnderflow
  /-- Raised by HALT and by an opcode byte that selects no form (R182). Safe: it is the source's own fault. -/
  | unknownInstruction
  /-- Raised where a sequential address would be 256 or more and `PC_OVERFLOW = Fault` (R184). Safe: the source puts the
  case "out of architectural contract", and the spec decides the fault (D5). -/
  | pcOutOfRange
  /-- Raised by CALL on a full stack of finite `STACK_DEPTH` (R185). Safe: it stops where a growable stack goes on (D6). -/
  | stackOverflow
deriving DecidableEq, Repr

/-- Why an instruction would have no meaning. No arm of `exec` uses it: every instruction has its meaning. -/
inductive Refusal where
  /-- Raised by an arm of `exec` whose instruction has no meaning yet; there is none. Safe: the machine stops. -/
  | notModelled (mnemonic : String)
deriving DecidableEq, Repr

/-- `status` of R20 and R34: the result of the last step. -/
inductive Status where
  | running
  | faulted (kind : Fault)
deriving DecidableEq, Repr

/-- Memory (R37, R50): 256 cells of a byte each, as (address, byte) pairs in one canonical form: addresses strictly rising
and below 256, and no pair whose byte is what an unlisted address reads as (`Memory.unlisted`, zero: the reset contents of
R200). `Memory.wf` in Sys2Proof/Machine/Ops.lean says the form holds. -/
structure Memory where
  cells : List Host.Cell
deriving DecidableEq, Repr

/-- Memory after reset: "all `0x00`" (R20). -/
def Memory.empty : Memory := ⟨[]⟩

/-- The core's state: the record of R20, and with it the parameters of R7 that the machine was built with. -/
structure State where
  /-- Program counter (R26). -/
  pc : Byte
  /-- Accumulator ACC (R22, R23). -/
  acc : Byte
  /-- Auxiliary register A (R22, R24). -/
  a : Byte
  /-- Data pointer DPTR (R22, R25). -/
  dptr : Byte
  /-- Zero flag Z (R29). -/
  z : Bool
  /-- Negative flag N (R29). -/
  n : Bool
  /-- Overflow/Carry flag OVF: signed overflow (R30, C4). -/
  ovf : Bool
  /-- Unified code and data memory (R37). -/
  mem : Memory
  /-- Call stack of return addresses, its TOP FIRST (R31; log entry 5). -/
  stack : List Byte
  /-- Program size, 0..256 (R33). -/
  progSize : Fin 257
  /-- The result of the last step (R34). -/
  status : Status
  /-- The MODEL's own field, no state of the spec's: the parameters of R7, which nothing ever writes (log entry 2). -/
  config : Config
deriving DecidableEq, Repr

/-- The state a machine with parameters `c` is created in (R201), which is the state Reset gives it (R200): every field
zeroed except `Z`, which is 1. -/
def State.created (c : Config) : State where
  pc := 0x00
  acc := 0x00
  a := 0x00
  dptr := 0x00
  z := true
  n := false
  ovf := false
  mem := .empty
  stack := []
  progSize := 0
  status := .running
  config := c

/-- The machine right after reset, with the default parameters of R7. -/
def State.reset : State := State.created .default

end Sys2Proof.Machine
end

