-- ==== Sys2Proof/Machine/Ops.lean ====
section
/-! DEFINITION. The named operations over memory, the call stack and the program counter; raising a fault, and ending a step
that raises none (spec/20_memory.md, spec/10_state.md R31, spec/40_step_cycle.md R103 to R105, spec/60_exceptions.md R180). -/

namespace Sys2Proof.Machine

/-- The outcome of one step or one meaning. -/
abbrev Result := Host.Outcome State Fault Refusal

/-! ### Memory -/

/-- What an address with no pair reads as: the reset contents, `0x00` (R20, R200). -/
def Memory.unlisted : Byte := 0x00

/-- The byte at address `k` of a list of pairs. -/
def Memory.lookup (k : Nat) : List Host.Cell → Byte
  | [] => Memory.unlisted
  | (j, w) :: rest => if j = k then w else Memory.lookup k rest

/-- The pair for address `k`, put before `rest`; none where the byte is what an unlisted address reads as. -/
def Memory.consCell (k : Nat) (v : Byte) (rest : List Host.Cell) : List Host.Cell :=
  if v = Memory.unlisted then rest else (k, v) :: rest

/-- The list after address `k` is set to `v`, in canonical form where the list was. -/
def Memory.update (k : Nat) (v : Byte) : List Host.Cell → List Host.Cell
  | [] => Memory.consCell k v []
  | (j, w) :: rest =>
    if k < j then Memory.consCell k v ((j, w) :: rest)
    else if k = j then Memory.consCell k v rest
    else (j, w) :: Memory.update k v rest

/-- `MemRead(addr, 1)` of R10: a byte read, with no side effect (R54). Every address names a cell (R55). -/
def Memory.read (m : Memory) (addr : Byte) : Byte := Memory.lookup (uint addr) m.cells

/-- `MemWrite(addr, 1, v)` of R10. -/
def Memory.write (m : Memory) (addr v : Byte) : Memory := ⟨Memory.update (uint addr) v m.cells⟩

/-- Pairs in canonical form, every address at least `lo`. -/
def Memory.canonicalFrom (lo : Nat) : List Host.Cell → Bool
  | [] => true
  | (j, w) :: rest => decide (lo ≤ j) && decide (j < 256) && (w != Memory.unlisted) && Memory.canonicalFrom (j + 1) rest

/-- The canonical form holds: addresses strictly rising, below 256, no byte equal to what an unlisted address reads as. -/
def Memory.wf (m : Memory) : Bool := Memory.canonicalFrom 0 m.cells

/-- The bytes of `image` written from address `k` on: `mem[k + i] <- image[i]` (R202). -/
def Memory.writeFrom (k : Nat) : List Byte → Memory → Memory
  | [], m => m
  | b :: rest, m => Memory.writeFrom (k + 1) rest (m.write (bits8 k) b)

/-! ### Faults -/

/-- The numeric codes of R181. "The numbers are labels; nothing reads them" (D17). -/
def Fault.code : Fault → Nat
  | .stackUnderflow => 1
  | .unknownInstruction => 2
  | .pcOutOfRange => 3
  | .stackOverflow => 4

/-- Taking a fault (R105, R180): "The state after a fault is exactly the state before the faulting step, with only `status`
changed". There is no handler, vector or saved state, and no return from a fault (R187): what leaves a fault is the next
step that succeeds, `hostReset`, or `loadProgram` and a step. -/
def takeFault (kind : Fault) (s : State) : Result := .next { s with status := .faulted kind }

/-! ### The program counter -/

/-- `seqAddr(p, k)` of R103, for the parameters `c`. -/
def seqAddr (c : Config) (p : Byte) (k : Nat) : Except Fault Byte :=
  if uint p + k ≤ 255 then .ok (bits8 (uint p + k))
  else match c.pcOverflow with
    | .wrap => .ok (bits8 (uint p + k))
    | .fault => .error .pcOutOfRange

/-- The staged state with `pc <- seqAddr(pc, w)`, where `s` is the state before the step. -/
def advance (s : State) (w : Nat) (staged : State) : Except Fault State :=
  match seqAddr s.config s.pc w with
  | .error k => .error k
  | .ok p => .ok { staged with pc := p }

/-! ### The call stack -/

/-- R31, R165: a CALL cannot push when a finite `STACK_DEPTH` entries are already there. -/
def stackFull (s : State) : Bool :=
  match s.config.stackDepth with
  | .unbounded => false
  | .bounded depth => s.stack.length == depth

/-- `Push(v)` of R10 with the check of R165. -/
def push (v : Byte) (s : State) : Except Fault State :=
  if stackFull s then .error .stackOverflow else .ok { s with stack := v :: s.stack }

/-- `Pop()` of R10 with the check of R166: the top entry and the state without it. -/
def pop (s : State) : Except Fault (Byte × State) :=
  match s.stack with
  | [] => .error .stackUnderflow
  | v :: rest => .ok (v, { s with stack := rest })

end Sys2Proof.Machine
end

