-- ==== Sys2Proof/Machine/Flags.lean ====
section
/-! DEFINITION. Every flag computation of the spec (spec/10_state.md R29, R30; spec/40_step_cycle.md R104; spec/42_alu.md R144),
and the end of a step, which derives the flags (R105, R106). -/

namespace Sys2Proof.Machine

/-- The zero test of R29: `v == 0x00`. -/
def zeroTest (v : Byte) : Bool := v == 0x00

/-- The sign test of R29: `v[7]`. -/
def signTest (v : Byte) : Bool := v.getLsbD 7

/-- The overflow of an addition, R144: `(a[7] == b[7]) and (r[7] != a[7])`, where `r` is the sum. -/
def addOverflow (a b r : Byte) : Bool := (a.getLsbD 7 == b.getLsbD 7) && (r.getLsbD 7 != a.getLsbD 7)

/-- R104: `Z` and `N` from the value ACC will hold after the step. `OVF` is not part of this. -/
def deriveFlags (s : State) : State := { s with z := zeroTest s.acc, n := signTest s.acc }

/-- R105: a step that raised no fault applies its staged writes, with the flags derived, and sets `status <- Running`. -/
def commit (staged : State) : Result := .next { deriveFlags staged with status := .running }

/-- The end of a step from `s` whose writes are staged in `r` (R11, R105): on a fault none of them applies. -/
def finish (s : State) (r : Except Fault State) : Result :=
  match r with
  | .error k => takeFault k s
  | .ok staged => commit staged

end Sys2Proof.Machine
end

