-- ==== Sys2Proof/Machine/Operands.lean ====
section
/-! DEFINITION. The operand forms (spec/00_scope.md R10, spec/30_encoding.md R73, spec/20_memory.md R51): a register, the
immediate byte, and the memory cell DPTR addresses. -/

namespace Sys2Proof.Machine

/-- The data registers `x[r]` of R10 and R22. -/
inductive Reg where
  | acc
  | a
  | dptr
deriving DecidableEq, Repr

/-- `x[r]` read (R10). No register is hardwired or aliased (R22). -/
def readReg (s : State) : Reg → Byte
  | .acc => s.acc
  | .a => s.a
  | .dptr => s.dptr

/-- `x[r] <- v` (R10). -/
def writeReg (r : Reg) (v : Byte) (s : State) : State :=
  match r with
  | .acc => { s with acc := v }
  | .a => { s with a := v }
  | .dptr => { s with dptr := v }

/-- What a move reads (R73). -/
inductive Source where
  /-- A register, implied by the opcode. -/
  | reg (r : Reg)
  /-- The operand byte of format F2, taken whole. -/
  | imm (imm8 : Byte)
  /-- `[DPTR]`: the memory cell at `uint(x[DPTR])` (R25, R51). -/
  | atDptr
deriving DecidableEq, Repr

/-- What a move writes. -/
inductive Dest where
  /-- A register, implied by the opcode. -/
  | reg (r : Reg)
  /-- `[DPTR]`: the memory cell at `uint(x[DPTR])` (R25, R51). -/
  | atDptr
deriving DecidableEq, Repr

/-- The value of a source operand. A move copies the bit pattern unchanged, whatever the signedness (R9, D19). -/
def readSource (s : State) : Source → Byte
  | .reg r => readReg s r
  | .imm imm8 => imm8
  | .atDptr => s.mem.read (readReg s .dptr)

/-- The address a destination operand stores to; a register destination stores nothing. -/
def storeAddr (s : State) : Dest → Option Byte
  | .reg _ => none
  | .atDptr => some (readReg s .dptr)

/-- The state with `v` written to a destination operand. -/
def writeDest (d : Dest) (v : Byte) (s : State) : State :=
  match d with
  | .reg r => writeReg r v s
  | .atDptr => { s with mem := s.mem.write (readReg s .dptr) v }

end Sys2Proof.Machine
end

