-- ==== Sys2Proof/Machine/Alu.lean ====
section
/-! DEFINITION. The ALU family (spec/42_alu.md): the 8-bit operations of R10 and the meanings over them. -/

namespace Sys2Proof.Machine

/-- `not8(v)` (R140). -/
def not8 (v : Byte) : Byte := ~~~v

/-- `and8(a, b)` (R141). -/
def and8 (a b : Byte) : Byte := a &&& b

/-- `add8(a, b) = bits8(uint(a) + uint(b))` (R10, R143). -/
def add8 (a b : Byte) : Byte := bits8 (uint a + uint b)

/-- `shl8(v) = bits8(2 · uint(v))` (R146); the bit shifted out is discarded. -/
def shl8 (v : Byte) : Byte := bits8 (2 * uint v)

/-- `shr8(v) = bits8(uint(v) div 2)` (R147); the bit shifted out is discarded. -/
def shr8 (v : Byte) : Byte := bits8 (uint v / 2)

/-- An ALU operation that writes ACC alone and leaves OVF (R142): its result into ACC, then `pc <- seqAddr(pc, 1)`. -/
def execAlu (result : Byte) (s : State) : Result := finish s (advance s 1 (writeReg .acc result s))

/-- INV ACC (R140). -/
def execInvAcc (s : State) : Result := execAlu (not8 (readReg s .acc)) s

/-- AND ACC,A (R141). -/
def execAndAccA (s : State) : Result := execAlu (and8 (readReg s .acc) (readReg s .a)) s

/-- ADD ACC,A (R143, R144): the only writer of OVF (R30). -/
def execAddAccA (s : State) : Result :=
  let a := readReg s .acc
  let b := readReg s .a
  let r := add8 a b
  finish s (advance s 1 { writeReg .acc r s with ovf := addOverflow a b r })

/-- SHL ACC (R146). -/
def execShlAcc (s : State) : Result := execAlu (shl8 (readReg s .acc)) s

/-- SHR ACC (R147). -/
def execShrAcc (s : State) : Result := execAlu (shr8 (readReg s .acc)) s

end Sys2Proof.Machine
end

