-- ==== Sys2Proof/Machine/Control.lean ====
section
/-! DEFINITION. The control transfer family (spec/43_control.md) and the reserved opcode bytes (spec/30_encoding.md R77). -/

namespace Sys2Proof.Machine

/-- The staged state of a jump: `pc <- target`, an absolute address (R73, R169). -/
def jumpTo (target : Byte) (s : State) : Except Fault State := .ok { s with pc := target }

/-- JZ, JN and JC (R164): the jump where the tested flag is 1, else past the 2-byte instruction. -/
def execJumpIf (flag : Bool) (target : Byte) (s : State) : Result :=
  finish s (if flag then jumpTo target s else advance s 2 s)

/-- JMP CTE (R160). -/
def execJmp (imm8 : Byte) (s : State) : Result := finish s (jumpTo imm8 s)

/-- JZ CTE (R161). -/
def execJz (imm8 : Byte) (s : State) : Result := execJumpIf s.z imm8 s

/-- JN CTE (R162). -/
def execJn (imm8 : Byte) (s : State) : Result := execJumpIf s.n imm8 s

/-- JC CTE (R163): OVF is read, not cleared. -/
def execJc (imm8 : Byte) (s : State) : Result := execJumpIf s.ovf imm8 s

/-- CALL CTE (R165): the return address first, then the stack's depth, then the push and the jump. -/
def execCall (imm8 : Byte) (s : State) : Result :=
  finish s (match seqAddr s.config s.pc 2 with
    | .error k => .error k
    | .ok ret =>
      match push ret s with
      | .error k => .error k
      | .ok t => jumpTo imm8 t)

/-- RET (R166). -/
def execRet (s : State) : Result :=
  finish s (match pop s with
    | .error k => .error k
    | .ok (target, t) => jumpTo target t)

/-- HALT (R168): it stops by faulting, always. -/
def execHalt (s : State) : Result := finish s (.error .unknownInstruction)

/-- An opcode byte that selects no form (R77, R102): the unknown-instruction fault, whatever the byte. -/
def execReserved (_op : Byte) (s : State) : Result := finish s (.error .unknownInstruction)

end Sys2Proof.Machine
end

