-- ==== Sys2Proof/Machine/DataTransfer.lean ====
section
/-! DEFINITION. The data transfer family (spec/41_data_transfer.md): each meaning is the `execute` part of R106 with the step's
end. The operand of an F2 form has been fetched (Sys2Proof/Machine/Fetch.lean). -/

namespace Sys2Proof.Machine

/-- A move of `w` bytes' length: "direct copy ...; Program Counter advances by the instruction's byte width". -/
def execMove (dst : Dest) (src : Source) (w : Nat) (s : State) : Result :=
  finish s (advance s w (writeDest dst (readSource s src) s))

/-- NOP (R120). -/
def execNop (s : State) : Result := finish s (advance s 1 s)

/-- MOV ACC,A (R121). -/
def execMovAccA (s : State) : Result := execMove (.reg .acc) (.reg .a) 1 s

/-- MOV A,ACC (R122). -/
def execMovAAcc (s : State) : Result := execMove (.reg .a) (.reg .acc) 1 s

/-- MOV ACC,CTE (R123). -/
def execMovAccCte (imm8 : Byte) (s : State) : Result := execMove (.reg .acc) (.imm imm8) 2 s

/-- MOV ACC,[DPTR] (R125). -/
def execMovAccAtDptr (s : State) : Result := execMove (.reg .acc) .atDptr 1 s

/-- MOV DPTR,ACC (R126). -/
def execMovDptrAcc (s : State) : Result := execMove (.reg .dptr) (.reg .acc) 1 s

/-- MOV [DPTR],ACC (R127). -/
def execMovAtDptrAcc (s : State) : Result := execMove .atDptr (.reg .acc) 1 s

end Sys2Proof.Machine
end

