-- ==== Sys2Proof/Machine/Dispatch.lean ====
section
/-! DEFINITION. The dispatch table: form to rule (spec/40_step_cycle.md R107). -/

namespace Sys2Proof.Machine

def exec (i : Instr) (s : State) : Host.Outcome State Fault Refusal :=
  match i with
  | .nop => Sys2Proof.Machine.execNop s
  | .movAccA => Sys2Proof.Machine.execMovAccA s
  | .movAAcc => Sys2Proof.Machine.execMovAAcc s
  | .movAccCte imm8 => Sys2Proof.Machine.execMovAccCte imm8 s
  | .movAccAtDptr => Sys2Proof.Machine.execMovAccAtDptr s
  | .movDptrAcc => Sys2Proof.Machine.execMovDptrAcc s
  | .movAtDptrAcc => Sys2Proof.Machine.execMovAtDptrAcc s
  | .invAcc => Sys2Proof.Machine.execInvAcc s
  | .andAccA => Sys2Proof.Machine.execAndAccA s
  | .addAccA => Sys2Proof.Machine.execAddAccA s
  | .jmp imm8 => Sys2Proof.Machine.execJmp imm8 s
  | .jz imm8 => Sys2Proof.Machine.execJz imm8 s
  | .jn imm8 => Sys2Proof.Machine.execJn imm8 s
  | .jc imm8 => Sys2Proof.Machine.execJc imm8 s
  | .call imm8 => Sys2Proof.Machine.execCall imm8 s
  | .ret => Sys2Proof.Machine.execRet s
  | .shlAcc => Sys2Proof.Machine.execShlAcc s
  | .shrAcc => Sys2Proof.Machine.execShrAcc s
  | .halt => Sys2Proof.Machine.execHalt s
  | .reserved op => Sys2Proof.Machine.execReserved op s

end Sys2Proof.Machine
end

