-- ==== Sys2Proof/Machine/Fetch.lean ====
section
/-! DEFINITION. Fetching and decoding the instruction at the program counter (spec/40_step_cycle.md R101, R102, R106), and
placing an instruction where the next step fetches it. -/

namespace Sys2Proof.Machine

/-- `MemRead(seqAddr(pc, 1), 1)` of R101: the operand byte, or the fault its address raises. -/
def fetchOperand (s : State) : Except Fault Byte :=
  match seqAddr s.config s.pc 1 with
  | .error k => .error k
  | .ok p => .ok (s.mem.read p)

/-- Fetch and decode (R101, R102): the opcode at `pc`; the operand counts, and its fault is raised, for an F2 form alone. -/
def fetch (s : State) : Except Fault Instr :=
  decodeWith s.config.opcodeMap (s.mem.read s.pc) (fetchOperand s)

/-- The two bytes of a table word stored at `pc` and at the address the operand is fetched from, where there is one. -/
def placeWord (s : State) (nbits w : Nat) : State :=
  let b := tableWordBytes nbits w
  let m := s.mem.write s.pc b.1
  match seqAddr s.config s.pc 1 with
  | .error _ => { s with mem := m }
  | .ok p => { s with mem := m.write p b.2 }

end Sys2Proof.Machine
end

