-- ==== Sys2Proof/Machine/Step.lean ====
section
/-! DEFINITION. `Step` (spec/40_step_cycle.md R100, R106): fetch, decode, execute. -/

namespace Sys2Proof.Machine

/-- One step (R106). It runs whatever `status` is (R108). -/
def step (s : State) : Host.Outcome State Fault Refusal :=
  match fetch s with
  | .error k => takeFault k s
  | .ok i => exec i s

/-- The state with a table word's instruction stored where `step` fetches next. -/
def State.withFetchWord (s : State) (nbits w : Nat) : State := placeWord s nbits w

end Sys2Proof.Machine
end

