-- ==== Sys2Proof/Machine/Assembler.lean ====
section
/-! DEFINITION. The assembler syntax (spec/30_encoding.md R80 to R87), a two-pass translation of source text into an image. It
is software beside the core (spec/00_scope.md R5), kept because it fixes the image the core executes. Source text is a list
of characters; the conventions the rules leave open are in log entry 7. -/

namespace Sys2Proof.Machine

/-- A piece of source text. -/
abbrev Text := List Char

/-- Why assembly fails (R87). Every error aborts with no image. Lines are numbered from 1. -/
inductive AsmError where
  /-- A line that is no instruction, no label and no literal (R83). DESIGN CHOICE (log entry 7): R87 lists "invalid literal syntax"
  and "unknown mnemonic" as different classes and no rule says which of them such a line falls in, so this one class stands for
  both, and for a label name the model refuses. Safe: no image either way. -/
  | badLine (line : Nat)
  /-- A known mnemonic with an operand signature not in R74 (R83). -/
  | badOperands (line : Nat)
  /-- A label used and never declared (R82), with the offset of the operand. -/
  | unresolvedLabel (name : Text) (offset : Nat)
  /-- A label declared twice, with its line. DESIGN CHOICE (log entry 7): the rules do not say what it means. Safe: no image. -/
  | duplicateLabel (name : Text) (line : Nat)
  /-- A label whose address would be 256 or more (R85), with its line. DESIGN CHOICE (log entry 7): R87 lists no such class, so
  its being a class of its own and its line are the model's. -/
  | labelOutOfRange (name : Text) (line : Nat)
  /-- An image longer than 256 bytes (R85). DESIGN CHOICE (log entry 7): R87 lists no such class and the rules give it no line
  and no offset, so it is reported with neither, after pass 1 and before any label is resolved. Safe: no image either way. -/
  | imageTooLong
deriving DecidableEq, Repr

/-! ### Literals (R81) -/

/-- The value of an upper-case digit, below 16. -/
def digitValue (c : Char) : Option Nat :=
  if '0' ≤ c ∧ c ≤ '9' then some (c.toNat - 48)
  else if 'A' ≤ c ∧ c ≤ 'F' then some (c.toNat - 55)
  else none

/-- The digits `cs` read after the value `acc` in a base; none at a character that is no digit of the base. -/
def readDigits (base acc : Nat) : Text → Option Nat
  | [] => some acc
  | c :: cs =>
    match digitValue c with
    | none => none
    | some d => if d < base then readDigits base (base * acc + d) cs else none

/-- A non-empty run of digits whose value is in 0..255; leading zeros are accepted (DESIGN CHOICE, log entry 7). -/
def readNumber (base : Nat) (cs : Text) : Option Byte :=
  match cs, readDigits base 0 cs with
  | _ :: _, some v => if v ≤ 255 then some (bits8 v) else none
  | _, _ => none

/-- A literal of R81, in upper case: hexadecimal with `0X`, binary with `0B`, else decimal. -/
def readLiteral : Text → Option Byte
  | '0' :: 'X' :: cs => readNumber 16 cs
  | '0' :: 'B' :: cs => readNumber 2 cs
  | cs => readNumber 10 cs

/-! ### Lines (R80) -/

/-- The source text cut at its line feeds. -/
def splitLines : Text → List Text
  | [] => [[]]
  | c :: cs =>
    if c = '\n' then [] :: splitLines cs
    else
      match splitLines cs with
      | [] => [[c]]
      | l :: ls => (c :: l) :: ls

/-- Spaces removed at both ends. -/
def trimText (t : Text) : Text := ((t.dropWhile (· = ' ')).reverse.dropWhile (· = ' ')).reverse

/-- A line without its comment, tabs, carriage returns and outer spaces, in upper case. -/
def cleanLine (t : Text) : Text :=
  trimText (((t.takeWhile (· ≠ ';')).filter (fun c => c ≠ '\t' ∧ c ≠ '\r')).map Char.toUpper)

/-- A cleaned line: the label it declares, if any, and the text after it. It is cut at its first colon (DESIGN CHOICE, log
entry 7). -/
def splitLabel (t : Text) : Option Text × Text :=
  if ':' ∈ t then (some (trimText (t.takeWhile (· ≠ ':'))), trimText ((t.dropWhile (· ≠ ':')).drop 1))
  else (none, t)

/-- The mnemonic and the operand text, whose spaces are all removed: "collapse all whitespace after the first
token boundary" as the model reads it (DESIGN CHOICE, log entry 7). -/
def splitMnemonic (t : Text) : Text × Text :=
  (t.takeWhile (· ≠ ' '), (t.dropWhile (· ≠ ' ')).filter (· ≠ ' '))

/-! ### Instructions (R74, R82 to R84) -/

/-- The signatures of R74 with no `CTE`, in the spellings R84 accepts. -/
def fixedSignatures : List (Text × Text × Form) :=
  [(['N', 'O', 'P'], [], .nop),
   (['M', 'O', 'V'], ['A', 'C', 'C', ',', 'A'], .movAccA),
   (['M', 'O', 'V'], ['A', ',', 'A', 'C', 'C'], .movAAcc),
   (['M', 'O', 'V'], ['A', 'C', 'C', ',', '[', 'D', 'P', 'T', 'R', ']'], .movAccAtDptr),
   (['M', 'O', 'V'], ['A', 'C', 'C', ',', '[', 'D', 'T', 'P', 'R', ']'], .movAccAtDptr),
   (['M', 'O', 'V'], ['D', 'P', 'T', 'R', ',', 'A', 'C', 'C'], .movDptrAcc),
   (['M', 'O', 'V'], ['D', 'T', 'P', 'R', ',', 'A', 'C', 'C'], .movDptrAcc),
   (['M', 'O', 'V'], ['[', 'D', 'P', 'T', 'R', ']', ',', 'A', 'C', 'C'], .movAtDptrAcc),
   (['M', 'O', 'V'], ['[', 'D', 'T', 'P', 'R', ']', ',', 'A', 'C', 'C'], .movAtDptrAcc),
   (['I', 'N', 'V'], ['A', 'C', 'C'], .invAcc),
   (['A', 'N', 'D'], ['A', 'C', 'C', ',', 'A'], .andAccA),
   (['A', 'D', 'D'], ['A', 'C', 'C', ',', 'A'], .addAccA),
   (['R', 'E', 'T'], [], .ret),
   (['S', 'H', 'L'], ['A', 'C', 'C'], .shlAcc),
   (['S', 'H', 'R'], ['A', 'C', 'C'], .shrAcc),
   (['H', 'A', 'L', 'T'], [], .halt)]

/-- The signatures of R74 with a `CTE`: the mnemonic, what stands before the `CTE`, and the form. -/
def cteSignatures : List (Text × Text × Form) :=
  [(['M', 'O', 'V'], ['A', 'C', 'C', ','], .movAccCte),
   (['J', 'M', 'P'], [], .jmp),
   (['J', 'Z'], [], .jz),
   (['J', 'N'], [], .jn),
   (['J', 'C'], [], .jc),
   (['C', 'A', 'L', 'L'], [], .call)]

/-- What a line emits. -/
inductive Item where
  /-- A form with no `CTE`. -/
  | fixed (f : Form)
  /-- A form with a literal `CTE`. -/
  | cte (f : Form) (v : Byte)
  /-- A form whose `CTE` is a label reference: a placeholder byte and a relocation (R82). -/
  | cteLabel (f : Form) (name : Text)
  /-- A raw data byte (R83). -/
  | data (v : Byte)
deriving DecidableEq, Repr

/-- `CTE` is one operand with no brackets: not empty, no comma, no `[` or `]` (DESIGN CHOICE, log entry 7). -/
def isCte (t : Text) : Bool := t ≠ [] && t.all (fun c => c ≠ ',' ∧ c ≠ '[' ∧ c ≠ ']')

/-- R82: a `CTE` is a literal, or otherwise a label name. -/
def cteItem (f : Form) (t : Text) : Item :=
  match readLiteral t with
  | some v => .cte f v
  | none => .cteLabel f t

/-- The item of a known mnemonic's operand text, if its signature is one of R74. -/
def matchSignature (mn ops : Text) : Option Item :=
  match fixedSignatures.find? (fun r => r.1 == mn && r.2.1 == ops) with
  | some r => some (.fixed r.2.2)
  | none =>
    match cteSignatures.find? (fun r => r.1 == mn && r.2.1.isPrefixOf ops && isCte (ops.drop r.2.1.length)) with
    | some r => some (cteItem r.2.2 (ops.drop r.2.1.length))
    | none => none

/-- The mnemonic is one of R74. -/
def isMnemonic (mn : Text) : Bool :=
  fixedSignatures.any (fun r => r.1 == mn) || cteSignatures.any (fun r => r.1 == mn)

/-- What the text of line `line` after its label emits, if anything (R83). A text that is neither an instruction nor a literal is
`badLine`, whichever of R87's classes it belongs to (DESIGN CHOICE, log entry 7). -/
def readItem (line : Nat) (t : Text) : Except AsmError (Option Item) :=
  if t = [] then .ok none
  else
    let p := splitMnemonic t
    if isMnemonic p.1 then
      match matchSignature p.1 p.2 with
      | some item => .ok (some item)
      | none => .error (.badOperands line)
    else
      match readLiteral t with
      | some v => .ok (some (.data v))
      | none => .error (.badLine line)

/-! ### The two passes (R82) -/

/-- What pass 1 has collected: the image, the labels with their addresses, the relocations with their offsets. -/
structure Asm where
  image : List Byte
  labels : List (Text × Nat)
  relocs : List (Nat × Text)
deriving DecidableEq, Repr

/-- The declared address of a label. -/
def lookupLabel (name : Text) : List (Text × Nat) → Option Nat
  | [] => none
  | (n, v) :: rest => if n = name then some v else lookupLabel name rest

/-- A label declared on line `line`: its value is the address the next emitted byte will occupy (R80, R85). DESIGN CHOICE (log
entry 7): the rules do not say which texts are a name, and any non-empty text with no space is taken as one, a number such as
`256` too, which `JMP 256` then refers to, since it is no literal (R82). -/
def declareLabel (line : Nat) (name : Text) (s : Asm) : Except AsmError Asm :=
  if name = [] ∨ ' ' ∈ name then .error (.badLine line)
  else if (lookupLabel name s.labels).isSome then .error (.duplicateLabel name line)
  else if s.image.length ≤ 255 then .ok { s with labels := (name, s.image.length) :: s.labels }
  else .error (.labelOutOfRange name line)

/-- The bytes of an item appended, with its relocation if it has one. -/
def emitItem (m : OpcodeMap) (item : Item) (s : Asm) : Asm :=
  match item with
  | .fixed f => { s with image := s.image ++ [m.code f] }
  | .cte f v => { s with image := s.image ++ [m.code f, v] }
  | .cteLabel f name =>
    { s with image := s.image ++ [m.code f, 0x00], relocs := s.relocs ++ [(s.image.length + 1, name)] }
  | .data v => { s with image := s.image ++ [v] }

/-- One line of pass 1. -/
def assembleLine (m : OpcodeMap) (line : Nat) (t : Text) (s : Asm) : Except AsmError Asm :=
  let p := splitLabel (cleanLine t)
  match (match p.1 with | none => Except.ok s | some name => declareLabel line name s) with
  | .error e => .error e
  | .ok s1 =>
    match readItem line p.2 with
    | .error e => .error e
    | .ok none => .ok s1
    | .ok (some item) => .ok (emitItem m item s1)

/-- Pass 1 over the lines, the first of them numbered `line`. -/
def passOne (m : OpcodeMap) : (line : Nat) → List Text → Asm → Except AsmError Asm
  | _, [], s => .ok s
  | line, t :: ts, s =>
    match assembleLine m line t s with
    | .error e => .error e
    | .ok s1 => passOne m (line + 1) ts s1

/-- Pass 2: each placeholder overwritten with its label's address. -/
def passTwo (labels : List (Text × Nat)) : List (Nat × Text) → List Byte → Except AsmError (List Byte)
  | [], image => .ok image
  | (offset, name) :: rest, image =>
    match lookupLabel name labels with
    | none => .error (.unresolvedLabel name offset)
    | some v => passTwo labels rest (image.set offset (bits8 v))

/-- The assembler: source text to an image of at most 256 bytes, or the error that aborts it (R85, R87). -/
def assemble (m : OpcodeMap) (source : Text) : Except AsmError (List Byte) :=
  match passOne m 1 (splitLines source) ⟨[], [], []⟩ with
  | .error e => .error e
  | .ok s => if s.image.length ≤ 256 then passTwo s.labels s.relocs s.image else .error .imageTooLong

end Sys2Proof.Machine
end

