-- ==== Sys2Proof/Machine/LinearDecode.lean ====
section
/-! DEFINITION. The linear decode of the 256-byte memory (spec/30_encoding.md R79). No rule of the core reads it; the host sees
it beside the state (R204). -/

namespace Sys2Proof.Machine

/-- A record of R79: `(p, op, imm8)` or `(p, op, no operand)`. -/
structure DecodeRecord where
  addr : Nat
  op : Byte
  operand : Option Byte
deriving DecidableEq, Repr

/-- The bytes a record covers, in address order. -/
def DecodeRecord.bytes (r : DecodeRecord) : List Byte := r.op :: r.operand.toList

/-- R79 from address `p` on, for at most `fuel` records: it does not distinguish code from data. -/
def linearDecodeFrom (c : OpcodeMap) (m : Memory) : (fuel p : Nat) → List DecodeRecord
  | 0, _ => []
  | fuel + 1, p =>
    if p ≤ 255 then
      let op := m.read (bits8 p)
      if c.lengthAt op = 2 ∧ p ≤ 254 then
        ⟨p, op, some (m.read (bits8 (p + 1)))⟩ :: linearDecodeFrom c m fuel (p + 2)
      else ⟨p, op, none⟩ :: linearDecodeFrom c m fuel (p + 1)
    else []

/-- The linear decode of all of memory: it starts at address 0 and stops after address 255. -/
def linearDecode (c : OpcodeMap) (m : Memory) : List DecodeRecord := linearDecodeFrom c m 256 0

end Sys2Proof.Machine
end

