-- ==== Sys2Proof/Machine/Boot.lean ====
section
/-! DEFINITION. The host's operations on the core besides `Step` (spec/70_reset_and_hazards.md R200 to R206): creating a
machine is `State.created`, reading a field is the field itself, and here are Reset and LoadProgram. -/

namespace Sys2Proof.Machine

/-- Why `LoadProgram` fails (R202). -/
inductive LoadError where
  /-- The image is longer than 256 bytes; nothing changes. -/
  | imageTooLong
deriving DecidableEq, Repr

/-- `Reset()` (R200): every field of R20 at its reset value, whatever it was. The parameters of R7 are no state and stay. -/
def hostReset (s : State) : State := State.created s.config

/-- `LoadProgram(image)` (R202): the image copied to address 0 on and its length kept; every other field is unchanged (D7). -/
def loadProgram (image : List Byte) (s : State) : Except LoadError State :=
  if h : image.length ≤ 256 then
    .ok { s with mem := s.mem.writeFrom 0 image, progSize := ⟨image.length, Nat.lt_succ_of_le h⟩ }
  else .error .imageTooLong

/-- The boot sequence of R203 up to the first `Step`: Reset, then LoadProgram. -/
def boot (c : Config) (image : List Byte) : Except LoadError State := loadProgram image (State.created c)

end Sys2Proof.Machine
end

