-- ==== Sys2Proof/Safety.lean ====
section
/-! DEFINITION. What counts as a good state and a good run: the invariant every step keeps (spec/40_step_cycle.md R110), the end of
a run (spec/70_reset_and_hazards.md R207), and which ends are normal (spec/92_eei_decisions.md D9). -/

namespace Sys2Proof.Safety

open Sys2Proof.Machine

/-- The flag invariant of R110: `Z = (ACC == 0x00)` and `N = ACC[7]`. -/
abbrev FlagInv (s : State) : Prop := s.z = zeroTest s.acc ∧ s.n = signTest s.acc

/-- The call stack holds at most `STACK_DEPTH` entries (R31). -/
abbrev StackInv (s : State) : Prop :=
  match s.config.stackDepth with
  | .unbounded => True
  | .bounded depth => s.stack.length ≤ depth

/-- The invariant of the machine: legal parameters (R7), canonical memory, the flag invariant and the stack's bound. -/
abbrev MachineInv (s : State) : Prop :=
  s.config.WellFormed ∧ s.mem.wf = true ∧ FlagInv s ∧ StackInv s

/-- The last step ended in a fault (R34). -/
def isFaulted (s : State) : Bool :=
  match s.status with
  | .running => false
  | .faulted _ => true

/-- D9: normal termination is `Faulted(UnknownInstruction)` with the byte of HALT at `pc`. -/
def haltedNormally (s : State) : Bool :=
  s.status == .faulted .unknownInstruction && s.mem.read s.pc == s.config.opcodeMap.code .halt

/-- D9: every fault but normal termination refutes a claim that a run is safe. -/
def safeState (s : State) : Bool := !isFaulted s || haltedNormally s

/-- A run of at most `fuel` steps up to its end, the first step that faults (R207): the final state, if it is reached. -/
def runToEnd : (fuel : Nat) → State → Option State
  | 0, _ => none
  | fuel + 1, s =>
    match step s with
    | .next t => if isFaulted t then some t else runToEnd fuel t
    | .fault _ => none
    | .refused _ => none

/-- The host's operations on the core that write state (R204, R205). -/
inductive HostOp where
  | reset
  | load (image : List Byte)
  | step

/-- The state after one operation of the host; a `LoadProgram` that fails changes nothing (R202). -/
def applyHostOp (op : HostOp) (s : State) : State :=
  match op with
  | .reset => hostReset s
  | .load image =>
    match loadProgram image s with
    | .ok t => t
    | .error _ => s
  | .step =>
    match step s with
    | .next t => t
    | .fault _ => s
    | .refused _ => s

/-- The state after a sequence of the host's operations, one at a time (R205). -/
def runHostOps : List HostOp → State → State
  | [], s => s
  | op :: ops, s => runHostOps ops (applyHostOp op s)

end Sys2Proof.Safety
end

