-- ==== Sys2Proof/Certificates/Slice0/Obligations.lean ====
section
/-! DEFINITION. The statements for the provers. A step or a meaning that faults answers the next state that R105 and R180 give,
the state before with `status` changed (log entry 1): `Faulted kind s` below. -/

namespace Sys2Proof.Statement

open Sys2Proof.Machine Sys2Proof.Safety

/-- The address `w` bytes after `pc` is at most 255, or wraps (R103). -/
abbrev CanAdvance (s : State) (w : Nat) : Prop := uint s.pc + w ≤ 255 ∨ s.config.pcOverflow = .wrap

/-- The address `w` bytes after `pc` is out of range and `PC_OVERFLOW = Fault` (R103). -/
abbrev CannotAdvance (s : State) (w : Nat) : Prop := 255 < uint s.pc + w ∧ s.config.pcOverflow = .fault

/-- The state a successful step leaves, from its staged writes (R104, R105): `Z` is the zero test of ACC, `N` its sign. -/
abbrev Done (t : State) : State :=
  { t with z := decide (t.acc = 0x00), n := decide (sint t.acc < 0), status := .running }

/-- The state a faulting step leaves (R180). -/
abbrev Faulted (kind : Fault) (s : State) : State := { s with status := .faulted kind }

/-- The byte at `pc` selects the form `f`, under a map that R76 admits. -/
abbrev AtForm (s : State) (f : Form) : Prop :=
  s.config.opcodeMap.Injective ∧ s.mem.read s.pc = s.config.opcodeMap.code f

/-- Wherever the flag invariant of R110 holds, the instruction changes no flag. -/
abbrev ChangesNoFlag (i : Instr) : Prop :=
  ∀ s t, FlagInv s → exec i s = .next t → t.z = s.z ∧ t.n = s.n ∧ t.ovf = s.ovf

/-- The instruction raises `pcOutOfRange`, and changes nothing else, where it cannot advance `w` bytes. -/
abbrev FaultsPastEnd (i : Instr) (w : Nat) : Prop :=
  ∀ s, CannotAdvance s w → exec i s = .next (Faulted .pcOutOfRange s)

/-- A form's operand cannot be fetched where its address is out of range: the step faults, whatever the operand. -/
abbrev FaultsAtOperandFetch (f : Form) : Prop :=
  ∀ s, AtForm s f → CannotAdvance s 1 → step s = .next (Faulted .pcOutOfRange s)

/-- A conditional jump on `flag` (R161 to R164). -/
abbrev JumpsIf (jump : Byte → Instr) (flag : State → Bool) : Prop :=
  ∀ imm8 s,
    (flag s = true → exec (jump imm8) s = .next (Done { s with pc := imm8 })) ∧
    (flag s = false → CanAdvance s 2 → exec (jump imm8) s = .next (Done { s with pc := s.pc + 2 })) ∧
    (flag s = false → CannotAdvance s 2 → exec (jump imm8) s = .next (Faulted .pcOutOfRange s))

/-- `k` steps from `s` all run, and leave `u`. -/
abbrev RanThrough (k : Nat) (s u : State) : Prop :=
  core.run k s = .next u ∧ ∀ j, j < k → ∃ v, core.run (j + 1) s = .next v ∧ v.status = .running

/-- The bytes `pc` and `pc + 1` name, in that order. -/
abbrev bytesAtPc (s : State) : List Byte := [s.mem.read s.pc, s.mem.read (s.pc + 1)]

/-- The first fault R186 finds, in its order; none where the step succeeds. -/
def firstFault (s : State) : Option Fault :=
  let pastEnd (w : Nat) : Option Fault := if CannotAdvance s w then some .pcOutOfRange else none
  let jumpIf (taken : Bool) : Option Fault := if CannotAdvance s 1 then some .pcOutOfRange else if taken then none else pastEnd 2
  match s.config.opcodeMap.formOf (s.mem.read s.pc) with
  | none => some .unknownInstruction
  | some .halt => some .unknownInstruction
  | some .ret => if s.stack = [] then some .stackUnderflow else none
  | some .jmp => pastEnd 1
  | some .jz => jumpIf s.z
  | some .jn => jumpIf s.n
  | some .jc => jumpIf s.ovf
  | some .call =>
    if CannotAdvance s 2 then some .pcOutOfRange
    else if s.config.stackDepth = .bounded s.stack.length then some .stackOverflow else none
  | some .movAccCte => pastEnd 2
  | some .nop | some .movAccA | some .movAAcc | some .movAccAtDptr | some .movDptrAcc | some .movAtDptrAcc
  | some .invAcc | some .andAccA | some .addAccA | some .shlAcc | some .shrAcc => pastEnd 1

/-- The four cases of R184, with `f` the form at `pc`. -/
abbrev PastEndCase (s : State) (f : Form) : Prop :=
  ((∃ mk, f.format = .f2 mk) ∧ s.pc = 0xFF) ∨
  ((∃ i, f.format = .f1 i) ∧ f ≠ .ret ∧ f ≠ .halt ∧ s.pc = 0xFF) ∨
  ((f = .movAccCte ∨ (f = .jz ∧ s.z = false) ∨ (f = .jn ∧ s.n = false) ∨ (f = .jc ∧ s.ovf = false)) ∧ s.pc = 0xFE) ∨
  (f = .call ∧ s.pc = 0xFE)

end Sys2Proof.Statement

section

open Sys2Proof Sys2Proof.Machine Sys2Proof.Safety Sys2Proof.Statement

/-! ### Data transfer (spec/41_data_transfer.md) -/

/-- R120. -/
def Obligations.NopAdvancesAndNothingElse : Prop :=
  (∀ rest, decode .default (0x00 :: rest) = .ok (.nop, rest)) ∧
  (∀ s, CanAdvance s 1 → exec .nop s = .next (Done { s with pc := s.pc + 1 })) ∧
  FaultsPastEnd .nop 1 ∧ ChangesNoFlag .nop

/-- R121. -/
def Obligations.MovAccACopiesAIntoAcc : Prop :=
  (∀ rest, decode .default (0x01 :: rest) = .ok (.movAccA, rest)) ∧
  (∀ s, CanAdvance s 1 → exec .movAccA s = .next (Done { s with acc := s.a, pc := s.pc + 1 })) ∧
  FaultsPastEnd .movAccA 1

/-- R122; its last clause says that no other instruction writes A. -/
def Obligations.MovAAccAloneWritesA : Prop :=
  (∀ rest, decode .default (0x02 :: rest) = .ok (.movAAcc, rest)) ∧
  (∀ s, CanAdvance s 1 → exec .movAAcc s = .next (Done { s with a := s.acc, pc := s.pc + 1 })) ∧
  FaultsPastEnd .movAAcc 1 ∧ ChangesNoFlag .movAAcc ∧
  (∀ i s t, i ≠ .movAAcc → exec i s = .next t → t.a = s.a)

/-- R123: the meaning, and the step with its operand fetch, at `0xFF` too where the address wraps. -/
def Obligations.MovAccCteLoadsTheOperandByte : Prop :=
  (∀ imm8 rest, decode .default (0x03 :: imm8 :: rest) = .ok (.movAccCte imm8, rest)) ∧
  (∀ imm8 s, CanAdvance s 2 → exec (.movAccCte imm8) s = .next (Done { s with acc := imm8, pc := s.pc + 2 })) ∧
  (∀ imm8, FaultsPastEnd (.movAccCte imm8) 2) ∧
  (∀ s, AtForm s .movAccCte → CanAdvance s 2 →
    step s = .next (Done { s with acc := s.mem.read (s.pc + 1), pc := s.pc + 2 })) ∧
  FaultsAtOperandFetch .movAccCte

/-- R125. -/
def Obligations.MovAccAtDptrLoadsTheAddressedCell : Prop :=
  (∀ rest, decode .default (0x04 :: rest) = .ok (.movAccAtDptr, rest)) ∧
  (∀ s, CanAdvance s 1 → exec .movAccAtDptr s = .next (Done { s with acc := s.mem.read s.dptr, pc := s.pc + 1 })) ∧
  FaultsPastEnd .movAccAtDptr 1

/-- R126; its last clause says that no other instruction writes DPTR. -/
def Obligations.MovDptrAccAloneWritesDptr : Prop :=
  (∀ rest, decode .default (0x05 :: rest) = .ok (.movDptrAcc, rest)) ∧
  (∀ s, CanAdvance s 1 → exec .movDptrAcc s = .next (Done { s with dptr := s.acc, pc := s.pc + 1 })) ∧
  FaultsPastEnd .movDptrAcc 1 ∧ ChangesNoFlag .movDptrAcc ∧
  (∀ i s t, i ≠ .movDptrAcc → exec i s = .next t → t.dptr = s.dptr)

/-- R127: the cell at DPTR reads as ACC afterwards and every other byte of memory as before. -/
def Obligations.MovAtDptrAccStoresOneCell : Prop :=
  (∀ rest, decode .default (0x06 :: rest) = .ok (.movAtDptrAcc, rest)) ∧
  (∀ s, s.mem.wf = true → CanAdvance s 1 →
    ∃ m, exec .movAtDptrAcc s = .next (Done { s with mem := m, pc := s.pc + 1 }) ∧
      ∀ q, storeAddr s .atDptr = some q →
        q = s.dptr ∧ m.read q = s.acc ∧ ∀ addr, addr ≠ q → m.read addr = s.mem.read addr) ∧
  FaultsPastEnd .movAtDptrAcc 1 ∧ ChangesNoFlag .movAtDptrAcc

/-- What the spec infers from R127 and R61 (it marks R128 as derived): after the step that stores into `q`, whatever state fetches with that memory reads the stored byte at
`q`, as its opcode where `pc = q` and as its operand where `q` is the operand's address. -/
def Obligations.StoredByteIsFetchedNext : Prop :=
  ∀ s t, s.mem.wf = true → AtForm s .movAtDptrAcc → step s = .next t → t.status = .running →
    ∀ u, u.mem = t.mem →
      (u.pc = s.dptr → fetch u = decodeWith u.config.opcodeMap s.acc (fetchOperand u)) ∧
      (CanAdvance u 1 → u.pc + 1 = s.dptr → fetchOperand u = .ok s.acc)

/-! ### ALU (spec/42_alu.md) -/

/-- R140. -/
def Obligations.InvAccInvertsEveryBit : Prop :=
  (∀ rest, decode .default (0x07 :: rest) = .ok (.invAcc, rest)) ∧
  (∀ s, CanAdvance s 1 → exec .invAcc s = .next (Done { s with acc := ~~~s.acc, pc := s.pc + 1 })) ∧
  FaultsPastEnd .invAcc 1 ∧
  (∀ v : Byte, not8 v = ~~~v ∧ not8 v = bits8 (255 - uint v))

/-- R141. -/
def Obligations.AndAccAIsBitwise : Prop :=
  (∀ rest, decode .default (0x08 :: rest) = .ok (.andAccA, rest)) ∧
  (∀ s, CanAdvance s 1 → exec .andAccA s = .next (Done { s with acc := s.acc &&& s.a, pc := s.pc + 1 })) ∧
  FaultsPastEnd .andAccA 1

/-- R143: the sum, and OVF as the comparison of signs. -/
def Obligations.AddAccAWritesSumAndOverflow : Prop :=
  (∀ rest, decode .default (0x09 :: rest) = .ok (.addAccA, rest)) ∧
  (∀ s, CanAdvance s 1 → exec .addAccA s = .next (Done { s with
    acc := s.acc + s.a, ovf := (s.acc.msb == s.a.msb) && ((s.acc + s.a).msb != s.acc.msb), pc := s.pc + 1 })) ∧
  FaultsPastEnd .addAccA 1

/-- R144 less its two's-complement identities: the value ADD writes to OVF, and that no other instruction changes it. -/
def Obligations.OverflowIsTheComparisonOfSigns : Prop :=
  (∀ s t, exec .addAccA s = .next t → t.status = .running →
    (t.ovf = true ↔ s.acc.getLsbD 7 = s.a.getLsbD 7 ∧ t.acc.getLsbD 7 ≠ s.acc.getLsbD 7)) ∧
  (∀ i s t, i ≠ .addAccA → exec i s = .next t → t.ovf = s.ovf)

/-- The identities G3 and G4, which the spec marks as general knowledge: OVF is set exactly where the signed sum is out of
range, and the unsigned and the signed reading of the sum agree modulo 256. -/
def Obligations.OverflowIsASignedSumOutOfRange : Prop :=
  (∀ s t, exec .addAccA s = .next t → t.status = .running →
    (t.ovf = true ↔ sint s.acc + sint s.a < -128 ∨ 127 < sint s.acc + sint s.a)) ∧
  (∀ a b : Byte, add8 a b = BitVec.ofInt 8 (sint a + sint b))

/-- What the spec infers from R144 (it marks R145 as derived). -/
def Obligations.OppositeSignsOrZeroNeverOverflow : Prop :=
  ∀ s t, exec .addAccA s = .next t → t.status = .running →
    ((sint s.acc < 0 ∧ 0 ≤ sint s.a) ∨ (0 ≤ sint s.acc ∧ sint s.a < 0) ∨ s.a = 0x00) → t.ovf = false

/-- The identities G1 and G2, which the spec marks as general knowledge: the signed reading of INV, and the subtraction idiom
(INV and ADD of 1 form the negation, and adding it subtracts). -/
def Obligations.InvertAndAddOneNegates : Prop :=
  (∀ v : Byte, sint (not8 v) = -sint v - 1) ∧
  (∀ a b : Byte, add8 a (add8 (not8 b) 0x01) = bits8 (uint a + 256 - uint b))

/-- R146. -/
def Obligations.ShlAccDoublesModulo256 : Prop :=
  (∀ rest, decode .default (0x10 :: rest) = .ok (.shlAcc, rest)) ∧
  (∀ s, CanAdvance s 1 → exec .shlAcc s = .next (Done { s with acc := s.acc <<< 1, pc := s.pc + 1 })) ∧
  (∀ s t, exec .shlAcc s = .next t → t.status = .running → t.n = s.acc.getLsbD 6) ∧
  FaultsPastEnd .shlAcc 1

/-- R147. -/
def Obligations.ShrAccIsLogicalAndNeverNegative : Prop :=
  (∀ rest, decode .default (0x11 :: rest) = .ok (.shrAcc, rest)) ∧
  (∀ s, CanAdvance s 1 → exec .shrAcc s = .next (Done { s with acc := s.acc >>> 1, pc := s.pc + 1 })) ∧
  (∀ s t, exec .shrAcc s = .next t → t.status = .running → t.n = false) ∧
  FaultsPastEnd .shrAcc 1

/-! ### Control transfer (spec/43_control.md) and reserved bytes (spec/30_encoding.md R77) -/

/-- R160: JMP makes no sequential advance, so the operand fetch alone can fault. -/
def Obligations.JmpGoesToItsOperand : Prop :=
  (∀ imm8 rest, decode .default (0x0A :: imm8 :: rest) = .ok (.jmp imm8, rest)) ∧
  (∀ imm8 s, exec (.jmp imm8) s = .next (Done { s with pc := imm8 })) ∧
  (∀ s, AtForm s .jmp → CanAdvance s 1 → step s = .next (Done { s with pc := s.mem.read (s.pc + 1) })) ∧
  FaultsAtOperandFetch .jmp ∧ (∀ imm8, ChangesNoFlag (.jmp imm8))

/-- R161. -/
def Obligations.JzTestsZero : Prop :=
  (∀ imm8 rest, decode .default (0x0B :: imm8 :: rest) = .ok (.jz imm8, rest)) ∧
  JumpsIf .jz (·.z) ∧ FaultsAtOperandFetch .jz ∧ (∀ imm8, ChangesNoFlag (.jz imm8)) ∧
  (∀ imm8 s, FlagInv s → s.acc = 0x00 → exec (.jz imm8) s = .next (Done { s with pc := imm8 }))

/-- R162, with SHR before it. -/
def Obligations.JnTestsNegative : Prop :=
  (∀ imm8 rest, decode .default (0x0C :: imm8 :: rest) = .ok (.jn imm8, rest)) ∧
  JumpsIf .jn (·.n) ∧ FaultsAtOperandFetch .jn ∧ (∀ imm8, ChangesNoFlag (.jn imm8)) ∧
  (∀ imm8 s, FlagInv s → sint s.acc < 0 → exec (.jn imm8) s = .next (Done { s with pc := imm8 })) ∧
  (∀ imm8 s t, exec .shrAcc s = .next t → t.status = .running → CanAdvance t 2 →
    exec (.jn imm8) t = .next (Done { t with pc := t.pc + 2 }))

/-- R163: OVF is read and not cleared; it is 0 after reset, an ADD that runs writes the signed overflow of its sum, and nothing
else changes it: no fault, no other instruction, no LoadProgram. -/
def Obligations.JcTestsOverflow : Prop :=
  (∀ imm8 rest, decode .default (0x0D :: imm8 :: rest) = .ok (.jc imm8, rest)) ∧
  JumpsIf .jc (·.ovf) ∧ FaultsAtOperandFetch .jc ∧ (∀ imm8, ChangesNoFlag (.jc imm8)) ∧
  (∀ s, (hostReset s).ovf = false) ∧
  (∀ s t, exec .addAccA s = .next t → t.status = .running →
    t.ovf = ((s.acc.msb == s.a.msb) && ((s.acc + s.a).msb != s.acc.msb))) ∧
  (∀ s t kind, exec .addAccA s = .next t → t.status = .faulted kind → t.ovf = s.ovf) ∧
  (∀ i s t, i ≠ .addAccA → exec i s = .next t → t.ovf = s.ovf) ∧
  (∀ image s t, loadProgram image s = .ok t → t.ovf = s.ovf)

/-- R165. -/
def Obligations.CallPushesReturnAddressAndJumps : Prop :=
  (∀ imm8 rest, decode .default (0x0E :: imm8 :: rest) = .ok (.call imm8, rest)) ∧
  (∀ imm8 s, CanAdvance s 2 → s.config.stackDepth ≠ .bounded s.stack.length →
    exec (.call imm8) s = .next (Done { s with stack := (s.pc + 2) :: s.stack, pc := imm8 })) ∧
  (∀ imm8 s, CanAdvance s 2 → s.config.stackDepth = .bounded s.stack.length →
    exec (.call imm8) s = .next (Faulted .stackOverflow s)) ∧
  (∀ imm8, FaultsPastEnd (.call imm8) 2) ∧ FaultsAtOperandFetch .call ∧ (∀ imm8, ChangesNoFlag (.call imm8))

/-- R166. -/
def Obligations.RetPopsIntoPc : Prop :=
  (∀ rest, decode .default (0x0F :: rest) = .ok (.ret, rest)) ∧
  (∀ s top rest, s.stack = top :: rest → exec .ret s = .next (Done { s with pc := top, stack := rest })) ∧
  (∀ s, s.stack = [] → exec .ret s = .next (Faulted .stackUnderflow s)) ∧
  ChangesNoFlag .ret

/-- R165 and R166 together: a RET right after a CALL restores the stack and returns past the CALL. -/
def Obligations.RetUndoesCall : Prop :=
  ∀ imm8 s t u, exec (.call imm8) s = .next t → t.status = .running → exec .ret t = .next u →
    u = Done { s with pc := s.pc + 2 }

/-- R168: HALT always faults, `pc` stays at it, and a repeated step faults again. -/
def Obligations.HaltFaultsAndStays : Prop :=
  (∀ rest, decode .default (0x12 :: rest) = .ok (.halt, rest)) ∧
  (∀ s, exec .halt s = .next (Faulted .unknownInstruction s)) ∧
  (∀ s, AtForm s .halt → step s = .next (Faulted .unknownInstruction s) ∧
    step (Faulted .unknownInstruction s) = .next (Faulted .unknownInstruction s))

/-- R77: a byte that selects no form faults and changes nothing else; with the default map these are `0x13..0xFF`. -/
def Obligations.ReservedByteFaults : Prop :=
  (∀ op s, exec (.reserved op) s = .next (Faulted .unknownInstruction s)) ∧
  (∀ s, s.config.opcodeMap.SelectsNone (s.mem.read s.pc) → step s = .next (Faulted .unknownInstruction s)) ∧
  (∀ op : Byte, OpcodeMap.default.SelectsNone op ↔ 0x13 ≤ uint op) ∧
  (∀ s, exec .halt s = .next (Faulted .unknownInstruction s)) ∧
  (∀ (f : Form) (mk : Byte → Instr) (imm8 : Byte) (rest : List Byte), f.format = .f2 mk →
    decode .default (OpcodeMap.default.code f :: imm8 :: rest) = .ok (mk imm8, rest))

/-! ### Encoding -/

/-- A byte that selects no form decodes, alone, to the instruction that carries it, under any map. That it is an instruction of
1 byte is the model's reading (log entry 10). -/
def Obligations.ReservedByteDecodesAlone : Prop :=
  (∀ (m : OpcodeMap) (op : Byte) rest, m.SelectsNone op → decode m (op :: rest) = .ok (.reserved op, rest)) ∧
  (∀ (op : Byte) rest, 0x13 ≤ uint op → decode .default (op :: rest) = .ok (.reserved op, rest))

/-- A few words written out from R75 decode to the instructions they stand for; the reserved byte's by log entry 10. -/
def Obligations.WordsOfTheDefaultMapDecode : Prop :=
  decode .default [0b00000000] = .ok (.nop, []) ∧ decode .default [0b00000011, 0x64] = .ok (.movAccCte 0x64, []) ∧
  decode .default [0b00001001] = .ok (.addAccA, []) ∧ decode .default [0b00001110, 0x08] = .ok (.call 0x08, []) ∧
  decode .default [0b00010011] = .ok (.reserved 0x13, []) ∧ decode .default [0b00001010] = .error .noOperand

/-- Decode and encode agree on every instruction, with every operand, under every map that R76 admits. A reserved
byte is an instruction of 1 byte by the model's reading (log entry 10). -/
def Obligations.DecodeOfEncode : Prop :=
  ∀ m : OpcodeMap, m.Injective → ∀ (i : Instr) (rest : List Byte), i.WellFormed m →
    decode m (encode m i ++ rest) = .ok (i, rest)

/-- Whatever decodes is a well-formed instruction, and its encoding is the bytes it was read from, under any map at all. A
reserved byte is an instruction of 1 byte by the model's reading (log entry 10). -/
def Obligations.EncodeOfDecode : Prop :=
  ∀ (m : OpcodeMap) (bs : List Byte) (i : Instr) (rest : List Byte), decode m bs = .ok (i, rest) →
    i.WellFormed m ∧ encode m i ++ rest = bs

/-! ### The step -/

/-- Where the bytes at `pc` decode to `i` and its operand, if it has one, has an address, the step is `exec i`. -/
def Obligations.StepRunsTheDecodedInstruction : Prop :=
  ∀ s i rest, decode s.config.opcodeMap (bytesAtPc s) = .ok (i, rest) →
    ((encode s.config.opcodeMap i).length = 1 ∨ CanAdvance s 1) → step s = exec i s

/-- A table word placed where the step fetches next is the instruction the next step runs (log entry 4). -/
def Obligations.PlacedWordRunsNext : Prop :=
  ∀ s nbits w i, s.config.opcodeMap = .default → s.mem.wf = true → decodeTableWord nbits w = some i →
    ((encode .default i).length = 1 ∨ CanAdvance s 1) →
     step (s.withFetchWord nbits w) = exec i (s.withFetchWord nbits w)

/-- R180 with R100: every step answers a next state, which ran, or is the state before with `status` alone changed. -/
def Obligations.EveryStepRunsOrFaultsPrecisely : Prop :=
  ∀ s, ∃ t, step s = .next t ∧ (t.status = .running ∨ ∃ kind, t = Faulted kind s)

/-- What the spec infers from R105 (it marks R108 as derived): a step in `Faulted` is the ordinary step, and one repeated after
a fault raises the same fault again. -/
def Obligations.RepeatedStepFaultsIdentically : Prop :=
  (∀ s st, step { s with status := st } = step s) ∧
  (∀ s t kind, step s = .next t → t.status = .faulted kind → t = Faulted kind s ∧ step t = .next t)

/-- R34: `status` is the result of the last step, Faulted(kind) exactly where the first fault of R186 is `kind`, and no step
reads it. -/
def Obligations.StatusRecordsTheLastStepAndIsNotRead : Prop :=
  (∀ s, (hostReset s).status = .running) ∧
  (∀ s t, step s = .next t → t.status = .running ∨ ∃ kind, t.status = .faulted kind ∧ t = Faulted kind s) ∧
  (∀ s t kind, step s = .next t → (t.status = .faulted kind ↔ firstFault s = some kind)) ∧
  (∀ s st, step { s with status := st } = step s)

/-- R33: no instruction reads or writes `progSize`. -/
def Obligations.ProgSizeIsOnlyForTheHost : Prop :=
  (∀ s t n, step s = .next t → t.progSize = s.progSize ∧ step { s with progSize := n } = .next { t with progSize := n }) ∧
  (∀ image s t, loadProgram image s = .ok t → t.progSize.val = image.length) ∧
  (∀ s, (hostReset s).progSize = 0)

/-- R30: OVF is written by ADD alone and read by JC alone. -/
def Obligations.OverflowFlagWriterAndReader : Prop :=
  (∀ i s t, i ≠ .addAccA → exec i s = .next t → t.ovf = s.ovf) ∧
  (∀ s t kind, exec .addAccA s = .next t → t.status = .faulted kind → t.ovf = s.ovf) ∧
  (∀ s t, exec .addAccA s = .next t → t.status = .running → t.ovf = addOverflow s.acc s.a (add8 s.acc s.a)) ∧
  (∀ i s t b, (∀ imm8, i ≠ .jc imm8) → exec i s = .next t → exec i { s with ovf := b } =
    .next (if i = .addAccA ∧ t.status = .running then t else { t with ovf := b })) ∧
  (∀ c, (State.created c).ovf = false)

/-- R24: A is written by MOV A,ACC alone and read by MOV ACC,A, AND and ADD alone. -/
def Obligations.AuxiliaryRegisterWriterAndReaders : Prop :=
  (∀ i s t, i ≠ .movAAcc → exec i s = .next t → t.a = s.a) ∧
  (∀ i s t v, i ≠ .movAccA → i ≠ .andAccA → i ≠ .addAccA → exec i s = .next t → exec i { s with a := v } =
    .next (if i = .movAAcc ∧ t.status = .running then t else { t with a := v }))

/-- R31 and R37 by instruction: the stack changes at CALL and RET alone, memory at MOV [DPTR],ACC alone, ACC at its eight
writers alone (R23), and nothing changes the parameters. -/
def Obligations.EveryOtherInstructionLeavesTheRest : Prop :=
  ∀ i s t, exec i s = .next t →
    (i ≠ .movAtDptrAcc → ∀ addr, t.mem.read addr = s.mem.read addr) ∧
    (i ≠ .ret → (∀ imm8, i ≠ .call imm8) → t.stack = s.stack) ∧
    ((∀ imm8, i ≠ .movAccCte imm8) → i ≠ .movAccA → i ≠ .movAccAtDptr → i ≠ .invAcc → i ≠ .andAccA → i ≠ .addAccA →
      i ≠ .shlAcc → i ≠ .shrAcc → t.acc = s.acc) ∧
    t.progSize = s.progSize ∧ t.config = s.config

/-! ### Faults (spec/60_exceptions.md) -/

/-- R182. -/
def Obligations.UnknownInstructionExactly : Prop :=
  ∀ s t, s.config.opcodeMap.Injective → step s = .next t →
    (t.status = .faulted .unknownInstruction ↔
      s.config.opcodeMap.SelectsNone (s.mem.read s.pc) ∨ s.mem.read s.pc = s.config.opcodeMap.code .halt) ∧
    (t.status = .faulted .unknownInstruction → t = Faulted .unknownInstruction s)

/-- R183. -/
def Obligations.StackUnderflowExactly : Prop :=
  ∀ s t, s.config.opcodeMap.Injective → step s = .next t →
    (t.status = .faulted .stackUnderflow ↔ s.mem.read s.pc = s.config.opcodeMap.code .ret ∧ s.stack = []) ∧
    (t.status = .faulted .stackUnderflow → t.pc = s.pc)

/-- R184. -/
def Obligations.PcOutOfRangeExactly : Prop :=
  ∀ s t, s.config.opcodeMap.Injective → step s = .next t →
    (t.status = .faulted .pcOutOfRange ↔
      s.config.pcOverflow = .fault ∧ ∃ f, s.mem.read s.pc = s.config.opcodeMap.code f ∧ PastEndCase s f)

/-- R185, at a CALL whose return address has a place (R186 checks that first). -/
def Obligations.StackOverflowExactly : Prop :=
  ∀ s t, s.config.opcodeMap.Injective → step s = .next t →
    (t.status = .faulted .stackOverflow ↔
      s.mem.read s.pc = s.config.opcodeMap.code .call ∧ CanAdvance s 2 ∧
        s.config.stackDepth = .bounded s.stack.length)

/-- R186: the step reports the first fault in the order of R186, and succeeds where there is none. -/
def Obligations.StepReportsTheFirstFault : Prop :=
  ∀ s t, step s = .next t →
    t.status = match firstFault s with
      | some kind => .faulted kind
      | none => .running

/-- R103. -/
def Obligations.SequentialAddressFaultsOrWraps : Prop :=
  ∀ (c : Config) (p : Byte) (k : Nat), k = 1 ∨ k = 2 →
    (uint p + k ≤ 255 → ∃ q, seqAddr c p k = .ok q ∧ uint q = uint p + k) ∧
    (255 < uint p + k → c.pcOverflow = .wrap → ∃ q, seqAddr c p k = .ok q ∧ uint q = uint p + k - 256) ∧
    (255 < uint p + k → c.pcOverflow = .fault → seqAddr c p k = .error .pcOutOfRange)

/-! ### Invariants -/

/-- Every step keeps the machine's invariant: legal parameters, canonical memory, the flag invariant, the stack's bound. -/
def Obligations.StepKeepsInv : Prop := ∀ s t, MachineInv s → step s = .next t → MachineInv t

/-- The invariant holds of a machine created with legal parameters, and right after reset. -/
def Obligations.InvHoldsAtReset : Prop :=
  (∀ c : Config, c.WellFormed → MachineInv (State.created c)) ∧ MachineInv State.reset

/-- Every operation of the host keeps the invariant. -/
def Obligations.HostOperationsKeepInv : Prop := ∀ op s, MachineInv s → MachineInv (applyHostOp op s)

/-- What the spec infers from R104 (it marks R110 as derived): after any sequence of Step, Reset and LoadProgram from a
created machine, Z and N are functions of ACC. The operations behind it keep the invariant: StepKeepsInv, HostOperationsKeepInv. -/
def Obligations.FlagsAreFunctionsOfAcc : Prop :=
  ∀ (c : Config) (ops : List HostOp),
    let s := runHostOps ops (State.created c)
    s.z = decide (s.acc = 0x00) ∧ s.n = s.acc.getLsbD 7

/-- R104: a successful step derives Z and N from the ACC it leaves, so they stay where ACC stays; only ADD writes OVF. -/
def Obligations.SuccessfulStepDerivesFlags : Prop :=
  (∀ s t, step s = .next t → t.status = .running → t.z = decide (t.acc = 0x00) ∧ t.n = t.acc.getLsbD 7) ∧
  (∀ s t, FlagInv s → step s = .next t → t.acc = s.acc → t.z = s.z ∧ t.n = s.n) ∧
  (∀ i s t, i ≠ .addAccA → exec i s = .next t → t.ovf = s.ovf)

/-- Two memories in canonical form that read alike at every address are equal (the model's representation, log entry 6). -/
def Obligations.CanonicalMemoryIsDeterminedByItsReads : Prop :=
  ∀ m1 m2 : Memory, m1.wf = true → m2.wf = true → (∀ addr, m1.read addr = m2.read addr) → m1 = m2

/-! ### The host's operations (spec/70_reset_and_hazards.md) -/

/-- R200: Reset sets every field, whatever it was. -/
def Obligations.ResetSetsEveryField : Prop :=
  ∀ s, (hostReset s).pc = 0x00 ∧ (hostReset s).acc = 0x00 ∧ (hostReset s).a = 0x00 ∧ (hostReset s).dptr = 0x00 ∧
    (hostReset s).z = true ∧ (hostReset s).n = false ∧ (hostReset s).ovf = false ∧
    (∀ addr, (hostReset s).mem.read addr = 0x00) ∧ (hostReset s).stack = [] ∧ (hostReset s).progSize = 0 ∧
    (hostReset s).status = .running

/-- R202: LoadProgram copies the image and its length, and changes nothing else; too long an image changes nothing. -/
def Obligations.LoadProgramCopiesTheImage : Prop :=
  (∀ image s, 256 < image.length → loadProgram image s = .error .imageTooLong ∧ applyHostOp (.load image) s = s) ∧
  (∀ image s, s.mem.wf = true → image.length ≤ 256 →
    ∃ m n, loadProgram image s = .ok { s with mem := m, progSize := n } ∧ n.val = image.length ∧
      ∀ addr : Byte, m.read addr = (image[uint addr]?).getD (s.mem.read addr))

/-- The end of a run (R207) is its first faulting step, and every run that comes to one ends there: the steps before it ran, it
leaves the state before it but for `status`, and a further step leaves the end as it is. -/
def Obligations.RunEndsAtTheFirstFault : Prop :=
  (∀ fuel s t, runToEnd fuel s = some t →
    (∃ k before kind, k < fuel ∧ RanThrough k s before ∧ step before = .next t ∧ t = Faulted kind before) ∧
      step t = .next t) ∧
  (∀ fuel k s before t kind, k < fuel → RanThrough k s before → step before = .next t → t.status = .faulted kind →
    runToEnd fuel s = some t)

/-! ### Linear decode and assembler (spec/30_encoding.md) -/

/-- R79: the records cover addresses 0 to 255 one after another, each with its opcode and the operand R79 gives it. -/
def Obligations.LinearDecodeCoversMemory : Prop :=
  ∀ (c : OpcodeMap) (m : Memory),
    (linearDecode c m).flatMap DecodeRecord.bytes = (List.range 256).map (fun k => m.read (bits8 k)) ∧
    ∀ i r, (linearDecode c m)[i]? = some r →
      r.addr = (((linearDecode c m).take i).flatMap DecodeRecord.bytes).length ∧ r.addr ≤ 255 ∧
      r.op = m.read (bits8 r.addr) ∧
      ((∃ f mk, c.formOf r.op = some f ∧ f.format = .f2 mk) ∧ r.addr ≤ 0xFE →
        r.operand = some (m.read (bits8 (r.addr + 1)))) ∧
      (¬ ((∃ f mk, c.formOf r.op = some f ∧ f.format = .f2 mk) ∧ r.addr ≤ 0xFE) → r.operand = none)

/-- R85: an assembled image has at most 256 bytes, and every label pass 1 declares has an address in 0..255. That
too long an image is reported as `imageTooLong`, before any label is resolved, is the model's choice (log entry 7). -/
def Obligations.AssembledImageFits : Prop :=
  (∀ m source image, assemble m source = .ok image → image.length ≤ 256) ∧
  (∀ m source s, passOne m 1 (splitLines source) ⟨[], [], []⟩ = .ok s →
    (∀ name v, (name, v) ∈ s.labels → v ≤ 255) ∧
    (256 < s.image.length → assemble m source = .error .imageTooLong))

/-- R80: case is ignored. -/
def Obligations.AssemblerIgnoresCase : Prop :=
  ∀ m source, assemble m (source.map Char.toUpper) = assemble m source

end
end

