-- ==== Sys2Proof/Laws/Decode.lean ====
section
/-! SUPPORT. The opcode map as a decoding table: which form a byte selects. -/

namespace Sys2Proof

theorem Form.mem_all (f : Form) : f ∈ Form.all := by cases f <;> decide

/-- A byte that selects a form is that form's byte. -/
theorem OpcodeMap.code_of_formOf {m : OpcodeMap} {op : Byte} {f : Form} (h : m.formOf op = some f) : m.code f = op := by
  have := List.find?_some h
  simpa using this

/-- A byte selects no form exactly where it is no form's byte. -/
theorem OpcodeMap.formOf_none_iff (m : OpcodeMap) (op : Byte) : m.formOf op = none ↔ m.SelectsNone op := by
  simp [OpcodeMap.formOf, OpcodeMap.SelectsNone, List.find?_eq_none]

/-- Under an injective map two forms with one byte are one form. -/
theorem OpcodeMap.Injective.eq_of_code {m : OpcodeMap} (h : m.Injective) {f g : Form} (e : m.code f = m.code g) : f = g :=
  List.inj_on_of_nodup_map h (Form.mem_all f) (Form.mem_all g) e

/-- Under an injective map a form's byte selects that form. -/
theorem OpcodeMap.Injective.formOf_code {m : OpcodeMap} (h : m.Injective) (f : Form) : m.formOf (m.code f) = some f := by
  cases hf : m.formOf (m.code f) with
  | none => exact absurd rfl ((m.formOf_none_iff _).1 hf f f.mem_all)
  | some g => exact congrArg some (h.eq_of_code (OpcodeMap.code_of_formOf hf))

/-- The byte of an F1 form decodes to its instruction, whatever follows it. -/
theorem decodeWith_f1 {ε : Type} {m : OpcodeMap} {f : Form} {op : Byte} {i : Instr} (hf : m.formOf op = some f)
    (hi : f.format = .f1 i) (operand : Except ε Byte) : decodeWith m op operand = .ok i := by
  simp [decodeWith, hf, hi]

/-- The byte of an F2 form decodes to its instruction with the operand, or the operand's error. -/
theorem decodeWith_f2 {ε : Type} {m : OpcodeMap} {f : Form} {op : Byte} {mk : Byte → Instr} (hf : m.formOf op = some f)
    (hi : f.format = .f2 mk) (operand : Except ε Byte) :
    decodeWith m op operand = operand.map mk := by
  cases operand <;> simp [decodeWith, hf, hi, Except.map]

/-- A byte that selects no form decodes to `reserved`, whatever follows it. -/
theorem decodeWith_reserved {ε : Type} {m : OpcodeMap} {op : Byte} (hf : m.formOf op = none) (operand : Except ε Byte) :
    decodeWith m op operand = .ok (.reserved op) := by
  simp [decodeWith, hf]

end Sys2Proof
end

