-- ==== Sys2Proof/Laws/Memory.lean ====
section
/-! SUPPORT. Memory: a read after a write, and every operation keeps the canonical form. -/

namespace Sys2Proof.Machine

@[simp] theorem Memory.read_empty (addr : Byte) : Memory.empty.read addr = 0x00 := rfl

theorem Memory.empty_wf : Memory.empty.wf = true := rfl

/-- In canonical form from `lo` on, an address below `lo` has no pair. -/
theorem Memory.lookup_below {k : Nat} : ∀ {cells : List Host.Cell} {lo : Nat},
    Memory.canonicalFrom lo cells = true → k < lo → Memory.lookup k cells = Memory.unlisted
  | [], _, _, _ => rfl
  | (j, w) :: rest, lo, h, hk => by
    simp only [Memory.canonicalFrom, Bool.and_eq_true, decide_eq_true_eq] at h
    have hj : j ≠ k := by omega
    simp only [Memory.lookup, if_neg hj]
    exact Memory.lookup_below h.2 (by omega)

/-- Canonical form from a higher address on is canonical form from a lower one on. -/
theorem Memory.canonicalFrom_mono {lo lo' : Nat} : ∀ {cells : List Host.Cell},
    Memory.canonicalFrom lo cells = true → lo' ≤ lo → Memory.canonicalFrom lo' cells = true
  | [], _, _ => rfl
  | (j, w) :: rest, h, hl => by
    simp only [Memory.canonicalFrom, Bool.and_eq_true, decide_eq_true_eq] at h ⊢
    exact ⟨⟨⟨by omega, h.1.1.2⟩, h.1.2⟩, h.2⟩

theorem Memory.lookup_consCell (k q : Nat) (v : Byte) {rest : List Host.Cell}
    (h : Memory.lookup k rest = Memory.unlisted) :
    Memory.lookup q (Memory.consCell k v rest) = if q = k then v else Memory.lookup q rest := by
  unfold Memory.consCell
  by_cases hq : q = k
  · subst hq; split
    · simp_all
    · simp [Memory.lookup]
  · have : ¬ k = q := fun e => hq e.symm
    split
    · rfl
    · rw [Memory.lookup, if_neg this]

theorem Memory.consCell_canonical {k lo : Nat} {v : Byte} {rest : List Host.Cell} (hk : k < 256) (hl : lo ≤ k)
    (h : Memory.canonicalFrom (k + 1) rest = true) : Memory.canonicalFrom lo (Memory.consCell k v rest) = true := by
  unfold Memory.consCell
  split
  · exact Memory.canonicalFrom_mono h (by omega)
  · simp_all [Memory.canonicalFrom]

theorem Memory.update_canonical {k : Nat} {v : Byte} (hk : k < 256) : ∀ {cells : List Host.Cell} {lo : Nat},
    Memory.canonicalFrom lo cells = true → lo ≤ k → Memory.canonicalFrom lo (Memory.update k v cells) = true
  | [], _, _, hl => Memory.consCell_canonical hk hl rfl
  | (j, w) :: rest, lo, h, hl => by
    have hc := h
    simp only [Memory.canonicalFrom, Bool.and_eq_true, decide_eq_true_eq] at h
    unfold Memory.update
    split
    · refine Memory.consCell_canonical hk hl ?_
      simp only [Memory.canonicalFrom, Bool.and_eq_true, decide_eq_true_eq]
      exact ⟨⟨⟨by omega, h.1.1.2⟩, h.1.2⟩, h.2⟩
    · split
      · subst_vars; exact Memory.consCell_canonical hk hl h.2
      · simp only [Memory.canonicalFrom, Bool.and_eq_true, decide_eq_true_eq]
        exact ⟨⟨⟨h.1.1.1, h.1.1.2⟩, h.1.2⟩, Memory.update_canonical hk h.2 (by omega)⟩

theorem Memory.lookup_update {k q : Nat} {v : Byte} : ∀ {cells : List Host.Cell} {lo : Nat},
    Memory.canonicalFrom lo cells = true →
    Memory.lookup q (Memory.update k v cells) = if q = k then v else Memory.lookup q cells
  | [], _, _ => Memory.lookup_consCell k q v rfl
  | (j, w) :: rest, lo, h => by
    have hr := h
    simp only [Memory.canonicalFrom, Bool.and_eq_true, decide_eq_true_eq] at hr
    unfold Memory.update
    split
    · rename_i hkj
      refine Memory.lookup_consCell k q v ?_
      exact Memory.lookup_below (lo := j) (Memory.canonicalFrom_mono (lo := j) (by
        simp only [Memory.canonicalFrom, Bool.and_eq_true, decide_eq_true_eq]
        exact ⟨⟨⟨Nat.le_refl _, hr.1.1.2⟩, hr.1.2⟩, hr.2⟩) (Nat.le_refl _)) hkj
    · split
      · rename_i hkj; subst hkj
        rw [Memory.lookup_consCell k q v (Memory.lookup_below hr.2 (by omega))]
        by_cases hq : q = k
        · simp [hq]
        · have : ¬ k = q := fun e => hq e.symm
          simp [Memory.lookup, hq, this]
      · rename_i hkj
        have ih := Memory.lookup_update (k := k) (q := q) (v := v) hr.2
        simp only [Memory.lookup, ih]
        by_cases hj : j = q
        · subst hj
          have : ¬ j = k := fun e => hkj e.symm
          simp [this]
        · simp [hj]

/-- A write leaves memory in canonical form. -/
theorem Memory.write_wf {m : Memory} (h : m.wf = true) (addr v : Byte) : (m.write addr v).wf = true :=
  Memory.update_canonical addr.isLt h (Nat.zero_le _)

/-- What a read gives after a write: the byte written at that address, and what it gave before at every other. -/
theorem Memory.read_write {m : Memory} (h : m.wf = true) (addr v b : Byte) :
    (m.write addr v).read b = if b = addr then v else m.read b := by
  have := Memory.lookup_update (k := addr.toNat) (q := b.toNat) (v := v) h
  simpa [Memory.read, Memory.write, BitVec.toNat_inj] using this

theorem Memory.writeFrom_wf : ∀ (image : List Byte) (k : Nat) {m : Memory},
    m.wf = true → (Memory.writeFrom k image m).wf = true
  | [], _, _, h => h
  | b :: rest, k, _, h => Memory.writeFrom_wf rest (k + 1) (Memory.write_wf h (bits8 k) b)

end Sys2Proof.Machine
end

