-- ==== Sys2Proof/Laws/Ops.lean ====
section
/-! SUPPORT. For each shared operation, one lemma that says everything it can do. -/

namespace Sys2Proof.Machine

/-- `seqAddr` answers an address where it is at most 255 or wraps, and there it is `p + k` modulo 256. -/
theorem seqAddr_ok {c : Config} {p : Byte} {k : Nat} (h : uint p + k ≤ 255 ∨ c.pcOverflow = .wrap) :
    seqAddr c p k = .ok (bits8 (uint p + k)) := by
  unfold seqAddr
  split
  · rfl
  · rcases h with h | h
    · contradiction
    · rw [h]

/-- `seqAddr` raises `pcOutOfRange` where the address is above 255 and the parameter is `Fault`. -/
theorem seqAddr_error {c : Config} {p : Byte} {k : Nat} (h : 255 < uint p + k) (hc : c.pcOverflow = .fault) :
    seqAddr c p k = .error .pcOutOfRange := by
  unfold seqAddr
  rw [if_neg (by omega), hc]

/-- Everything `seqAddr` can answer. -/
theorem seqAddr_cases (c : Config) (p : Byte) (k : Nat) :
    (seqAddr c p k = .ok (bits8 (uint p + k)) ∧ (uint p + k ≤ 255 ∨ c.pcOverflow = .wrap)) ∨
    (seqAddr c p k = .error .pcOutOfRange ∧ 255 < uint p + k ∧ c.pcOverflow = .fault) := by
  by_cases h : uint p + k ≤ 255
  · exact .inl ⟨seqAddr_ok (.inl h), .inl h⟩
  · cases hc : c.pcOverflow
    · exact .inr ⟨seqAddr_error (by omega) hc, by omega, rfl⟩
    · exact .inl ⟨seqAddr_ok (.inr hc), .inr rfl⟩

/-- Everything `advance` can answer. -/
theorem advance_cases (s : State) (w : Nat) (staged : State) :
    (advance s w staged = .ok { staged with pc := bits8 (uint s.pc + w) } ∧
      (uint s.pc + w ≤ 255 ∨ s.config.pcOverflow = .wrap)) ∨
    (advance s w staged = .error .pcOutOfRange ∧ 255 < uint s.pc + w ∧ s.config.pcOverflow = .fault) := by
  unfold advance
  rcases seqAddr_cases s.config s.pc w with ⟨h, hc⟩ | ⟨h, hc⟩ <;> rw [h]
  · exact .inl ⟨rfl, hc⟩
  · exact .inr ⟨rfl, hc⟩

/-- The end of a step always answers a next state: the faulting state, or the staged state committed. -/
theorem finish_cases (s : State) (r : Except Fault State) :
    (∃ k, r = .error k ∧ finish s r = .next { s with status := .faulted k }) ∨
    (∃ t, r = .ok t ∧ finish s r = .next { deriveFlags t with status := .running }) := by
  cases r with
  | error k => exact .inl ⟨k, rfl, rfl⟩
  | ok t => exact .inr ⟨t, rfl, rfl⟩

@[simp] theorem finish_error (s : State) (k : Fault) : finish s (.error k) = .next { s with status := .faulted k } := rfl
@[simp] theorem finish_ok (s t : State) : finish s (.ok t) = .next { deriveFlags t with status := .running } := rfl

theorem stackFull_iff (s : State) : stackFull s = true ↔ s.config.stackDepth = .bounded s.stack.length := by
  unfold stackFull
  cases s.config.stackDepth with
  | unbounded => simp
  | bounded depth =>
    simp only [beq_iff_eq, StackDepth.bounded.injEq]
    exact eq_comm

/-- Everything `push` can answer. -/
theorem push_cases (v : Byte) (s : State) :
    (push v s = .ok { s with stack := v :: s.stack } ∧ s.config.stackDepth ≠ .bounded s.stack.length) ∨
    (push v s = .error .stackOverflow ∧ s.config.stackDepth = .bounded s.stack.length) := by
  unfold push
  by_cases h : stackFull s = true
  · exact .inr ⟨if_pos h, (stackFull_iff s).1 h⟩
  · exact .inl ⟨if_neg h, fun e => h ((stackFull_iff s).2 e)⟩

/-- Everything `pop` can answer. -/
theorem pop_cases (s : State) :
    (∃ v rest, s.stack = v :: rest ∧ pop s = .ok (v, { s with stack := rest })) ∨
    (s.stack = [] ∧ pop s = .error .stackUnderflow) := by
  cases h : s.stack with
  | nil => exact .inr ⟨rfl, by simp [pop, h]⟩
  | cons v rest => exact .inl ⟨v, rest, rfl, by simp [pop, h]⟩

end Sys2Proof.Machine
end

