-- ==== Sys2Proof/Laws/State.lean ====
section
/-! SUPPORT. One lemma per field per update of the state: the registers, the derived flags, and the created state. -/

namespace Sys2Proof.Machine

/-! ### `deriveFlags` -/

@[simp] theorem deriveFlags_pc (s : State) : (deriveFlags s).pc = s.pc := rfl
@[simp] theorem deriveFlags_acc (s : State) : (deriveFlags s).acc = s.acc := rfl
@[simp] theorem deriveFlags_a (s : State) : (deriveFlags s).a = s.a := rfl
@[simp] theorem deriveFlags_dptr (s : State) : (deriveFlags s).dptr = s.dptr := rfl
@[simp] theorem deriveFlags_z (s : State) : (deriveFlags s).z = zeroTest s.acc := rfl
@[simp] theorem deriveFlags_n (s : State) : (deriveFlags s).n = signTest s.acc := rfl
@[simp] theorem deriveFlags_ovf (s : State) : (deriveFlags s).ovf = s.ovf := rfl
@[simp] theorem deriveFlags_mem (s : State) : (deriveFlags s).mem = s.mem := rfl
@[simp] theorem deriveFlags_stack (s : State) : (deriveFlags s).stack = s.stack := rfl
@[simp] theorem deriveFlags_progSize (s : State) : (deriveFlags s).progSize = s.progSize := rfl
@[simp] theorem deriveFlags_status (s : State) : (deriveFlags s).status = s.status := rfl
@[simp] theorem deriveFlags_config (s : State) : (deriveFlags s).config = s.config := rfl

/-! ### `writeReg` -/

@[simp] theorem readReg_acc (s : State) : readReg s .acc = s.acc := rfl
@[simp] theorem readReg_a (s : State) : readReg s .a = s.a := rfl
@[simp] theorem readReg_dptr (s : State) : readReg s .dptr = s.dptr := rfl
@[simp] theorem writeReg_acc (v : Byte) (s : State) : writeReg .acc v s = { s with acc := v } := rfl
@[simp] theorem writeReg_a (v : Byte) (s : State) : writeReg .a v s = { s with a := v } := rfl
@[simp] theorem writeReg_dptr (v : Byte) (s : State) : writeReg .dptr v s = { s with dptr := v } := rfl

theorem readReg_writeReg_same (r : Reg) (v : Byte) (s : State) : readReg (writeReg r v s) r = v := by cases r <;> rfl

theorem readReg_writeReg_other {r q : Reg} (h : q ≠ r) (v : Byte) (s : State) :
    readReg (writeReg r v s) q = readReg s q := by
  cases r <;> cases q <;> first | rfl | exact absurd rfl h

@[simp] theorem writeReg_pc (r : Reg) (v : Byte) (s : State) : (writeReg r v s).pc = s.pc := by cases r <;> rfl
@[simp] theorem writeReg_z (r : Reg) (v : Byte) (s : State) : (writeReg r v s).z = s.z := by cases r <;> rfl
@[simp] theorem writeReg_n (r : Reg) (v : Byte) (s : State) : (writeReg r v s).n = s.n := by cases r <;> rfl
@[simp] theorem writeReg_ovf (r : Reg) (v : Byte) (s : State) : (writeReg r v s).ovf = s.ovf := by cases r <;> rfl
@[simp] theorem writeReg_mem (r : Reg) (v : Byte) (s : State) : (writeReg r v s).mem = s.mem := by cases r <;> rfl
@[simp] theorem writeReg_stack (r : Reg) (v : Byte) (s : State) : (writeReg r v s).stack = s.stack := by cases r <;> rfl
@[simp] theorem writeReg_progSize (r : Reg) (v : Byte) (s : State) : (writeReg r v s).progSize = s.progSize := by
  cases r <;> rfl
@[simp] theorem writeReg_status (r : Reg) (v : Byte) (s : State) : (writeReg r v s).status = s.status := by cases r <;> rfl
@[simp] theorem writeReg_config (r : Reg) (v : Byte) (s : State) : (writeReg r v s).config = s.config := by cases r <;> rfl

/-! ### Operands -/

@[simp] theorem readSource_reg (s : State) (r : Reg) : readSource s (.reg r) = readReg s r := rfl
@[simp] theorem readSource_imm (s : State) (v : Byte) : readSource s (.imm v) = v := rfl
@[simp] theorem readSource_atDptr (s : State) : readSource s .atDptr = s.mem.read s.dptr := rfl
@[simp] theorem writeDest_reg (r : Reg) (v : Byte) (s : State) : writeDest (.reg r) v s = writeReg r v s := rfl
@[simp] theorem writeDest_atDptr (v : Byte) (s : State) :
    writeDest .atDptr v s = { s with mem := s.mem.write s.dptr v } := rfl
@[simp] theorem storeAddr_reg (s : State) (r : Reg) : storeAddr s (.reg r) = none := rfl
@[simp] theorem storeAddr_atDptr (s : State) : storeAddr s .atDptr = some s.dptr := rfl

/-! ### `State.created` -/

@[simp] theorem created_pc (c : Config) : (State.created c).pc = 0x00 := rfl
@[simp] theorem created_acc (c : Config) : (State.created c).acc = 0x00 := rfl
@[simp] theorem created_a (c : Config) : (State.created c).a = 0x00 := rfl
@[simp] theorem created_dptr (c : Config) : (State.created c).dptr = 0x00 := rfl
@[simp] theorem created_z (c : Config) : (State.created c).z = true := rfl
@[simp] theorem created_n (c : Config) : (State.created c).n = false := rfl
@[simp] theorem created_ovf (c : Config) : (State.created c).ovf = false := rfl
@[simp] theorem created_mem (c : Config) : (State.created c).mem = .empty := rfl
@[simp] theorem created_stack (c : Config) : (State.created c).stack = [] := rfl
@[simp] theorem created_progSize (c : Config) : (State.created c).progSize = 0 := rfl
@[simp] theorem created_status (c : Config) : (State.created c).status = .running := rfl
@[simp] theorem created_config (c : Config) : (State.created c).config = c := rfl

end Sys2Proof.Machine
end

