-- ==== Sys2Proof/Laws/Exec.lean ====
section
/-! SUPPORT. For each operation that several meanings share, and for the host's, one lemma that says everything it can do. -/

namespace Sys2Proof.Machine

/-- Ending a step at the sequential next address: the staged state at that address, flags derived, or the fault. -/
theorem finish_advance_cases (s : State) (w : Nat) (staged : State) :
    (finish s (advance s w staged) =
        .next { deriveFlags { staged with pc := bits8 (uint s.pc + w) } with status := .running } ∧
      (uint s.pc + w ≤ 255 ∨ s.config.pcOverflow = .wrap)) ∨
    (finish s (advance s w staged) = .next { s with status := .faulted .pcOutOfRange } ∧
      255 < uint s.pc + w ∧ s.config.pcOverflow = .fault) := by
  rcases advance_cases s w staged with ⟨h, hc⟩ | ⟨h, hc⟩ <;> rw [h]
  · exact .inl ⟨rfl, hc⟩
  · exact .inr ⟨rfl, hc⟩

/-- A move writes its destination and advances by its length, or faults past the end. -/
theorem execMove_cases (dst : Dest) (src : Source) (w : Nat) (s : State) :
    (execMove dst src w s = .next
        { deriveFlags { writeDest dst (readSource s src) s with pc := bits8 (uint s.pc + w) } with status := .running } ∧
      (uint s.pc + w ≤ 255 ∨ s.config.pcOverflow = .wrap)) ∨
    (execMove dst src w s = .next { s with status := .faulted .pcOutOfRange } ∧
      255 < uint s.pc + w ∧ s.config.pcOverflow = .fault) :=
  finish_advance_cases s w _

/-- An ALU operation other than ADD writes ACC and advances by 1, or faults past the end. -/
theorem execAlu_cases (result : Byte) (s : State) :
    (execAlu result s = .next
        { deriveFlags { s with acc := result, pc := bits8 (uint s.pc + 1) } with status := .running } ∧
      (uint s.pc + 1 ≤ 255 ∨ s.config.pcOverflow = .wrap)) ∨
    (execAlu result s = .next { s with status := .faulted .pcOutOfRange } ∧
      255 < uint s.pc + 1 ∧ s.config.pcOverflow = .fault) :=
  finish_advance_cases s 1 _

/-- A conditional jump goes to its target, or past the instruction, or faults past the end. -/
theorem execJumpIf_cases (flag : Bool) (target : Byte) (s : State) :
    (flag = true ∧ execJumpIf flag target s =
      .next { deriveFlags { s with pc := target } with status := .running }) ∨
    (flag = false ∧ execJumpIf flag target s =
        .next { deriveFlags { s with pc := bits8 (uint s.pc + 2) } with status := .running } ∧
      (uint s.pc + 2 ≤ 255 ∨ s.config.pcOverflow = .wrap)) ∨
    (flag = false ∧ execJumpIf flag target s = .next { s with status := .faulted .pcOutOfRange } ∧
      255 < uint s.pc + 2 ∧ s.config.pcOverflow = .fault) := by
  cases flag with
  | true => exact .inl ⟨rfl, rfl⟩
  | false =>
    rcases finish_advance_cases s 2 s with ⟨h, hc⟩ | ⟨h, hc⟩
    · exact .inr (.inl ⟨rfl, h, hc⟩)
    · exact .inr (.inr ⟨rfl, h, hc⟩)

/-- A destination operand changes memory only at the address it stores to. -/
theorem writeDest_mem (d : Dest) (v : Byte) (s : State) :
    (writeDest d v s).mem = match storeAddr s d with
      | none => s.mem
      | some addr => s.mem.write addr v := by
  cases d with
  | reg r => cases r <;> rfl
  | atDptr => rfl

/-- Placing a table word changes memory alone, and keeps its canonical form. -/
theorem placeWord_frame (s : State) (nbits w : Nat) : ∃ m, placeWord s nbits w = { s with mem := m } := by
  unfold placeWord
  simp only
  split <;> exact ⟨_, rfl⟩

theorem placeWord_wf {s : State} (h : s.mem.wf = true) (nbits w : Nat) : (placeWord s nbits w).mem.wf = true := by
  unfold placeWord
  simp only
  split
  · exact Memory.write_wf h _ _
  · exact Memory.write_wf (Memory.write_wf h _ _) _ _

/-- Everything LoadProgram can answer. -/
theorem loadProgram_cases (image : List Byte) (s : State) :
    (∃ n : Fin 257, n.val = image.length ∧
      loadProgram image s = .ok { s with mem := s.mem.writeFrom 0 image, progSize := n }) ∨
    (256 < image.length ∧ loadProgram image s = .error .imageTooLong) := by
  unfold loadProgram
  split
  · exact .inl ⟨_, rfl, rfl⟩
  · exact .inr ⟨by omega, rfl⟩

end Sys2Proof.Machine
end

