-- ==== Sys2Proof/Laws/PerInstr.lean ====
section
/-! SUPPORT. The per-instruction families of LAWS.json. -/

namespace Sys2Proof.Laws.FormEncoding

/-- The encoding of an instruction that has a form is the byte the map gives the form and as many bytes as the form's
format has (R70, R71, R76); a reserved byte is encoded as itself. -/
def Statement (i : Instr) : Prop :=
  ∀ m : OpcodeMap, match i.form with
    | some f => (encode m i).head? = some (m.code f) ∧ (encode m i).length = f.format.length
    | none => (encode m i).length = 1

theorem nop : Statement .nop := fun _ => ⟨rfl, rfl⟩
theorem movAccA : Statement .movAccA := fun _ => ⟨rfl, rfl⟩
theorem movAAcc : Statement .movAAcc := fun _ => ⟨rfl, rfl⟩
theorem movAccCte (imm8 : Byte) : Statement (.movAccCte imm8) := fun _ => ⟨rfl, rfl⟩
theorem movAccAtDptr : Statement .movAccAtDptr := fun _ => ⟨rfl, rfl⟩
theorem movDptrAcc : Statement .movDptrAcc := fun _ => ⟨rfl, rfl⟩
theorem movAtDptrAcc : Statement .movAtDptrAcc := fun _ => ⟨rfl, rfl⟩
theorem invAcc : Statement .invAcc := fun _ => ⟨rfl, rfl⟩
theorem andAccA : Statement .andAccA := fun _ => ⟨rfl, rfl⟩
theorem addAccA : Statement .addAccA := fun _ => ⟨rfl, rfl⟩
theorem jmp (imm8 : Byte) : Statement (.jmp imm8) := fun _ => ⟨rfl, rfl⟩
theorem jz (imm8 : Byte) : Statement (.jz imm8) := fun _ => ⟨rfl, rfl⟩
theorem jn (imm8 : Byte) : Statement (.jn imm8) := fun _ => ⟨rfl, rfl⟩
theorem jc (imm8 : Byte) : Statement (.jc imm8) := fun _ => ⟨rfl, rfl⟩
theorem call (imm8 : Byte) : Statement (.call imm8) := fun _ => ⟨rfl, rfl⟩
theorem ret : Statement .ret := fun _ => ⟨rfl, rfl⟩
theorem shlAcc : Statement .shlAcc := fun _ => ⟨rfl, rfl⟩
theorem shrAcc : Statement .shrAcc := fun _ => ⟨rfl, rfl⟩
theorem halt : Statement .halt := fun _ => ⟨rfl, rfl⟩
theorem reserved (op : Byte) : Statement (.reserved op) := fun _ => rfl

end Sys2Proof.Laws.FormEncoding
end

