-- ==== Sys2Proof/Laws/Step.lean ====
section
/-! SUPPORT. What a meaning and a step can do, said once. -/

namespace Sys2Proof.Machine

/-- Every meaning is the end of a step over some staged writes. -/
theorem exec_finish (i : Instr) (s : State) : ∃ r, exec i s = finish s r := by
  cases i with
  | jmp imm8 => exact ⟨jumpTo imm8 s, rfl⟩
  | halt => exact ⟨.error .unknownInstruction, rfl⟩
  | reserved op => exact ⟨.error .unknownInstruction, rfl⟩
  | _ => exact ⟨_, rfl⟩

/-- Everything a step does: it raises the fault of its fetch, or it runs the fetched instruction. -/
theorem step_cases (s : State) :
    (∃ k, fetch s = .error k ∧ step s = takeFault k s) ∨ (∃ i, fetch s = .ok i ∧ step s = exec i s) := by
  unfold step
  cases h : fetch s with
  | error k => exact .inl ⟨k, rfl, rfl⟩
  | ok i => exact .inr ⟨i, rfl, rfl⟩

/-- Everything the operand fetch can answer. -/
theorem fetchOperand_cases (s : State) :
    (fetchOperand s = .ok (s.mem.read (bits8 (uint s.pc + 1))) ∧
      (uint s.pc + 1 ≤ 255 ∨ s.config.pcOverflow = .wrap)) ∨
    (fetchOperand s = .error .pcOutOfRange ∧ 255 < uint s.pc + 1 ∧ s.config.pcOverflow = .fault) := by
  unfold fetchOperand
  rcases seqAddr_cases s.config s.pc 1 with ⟨h, hc⟩ | ⟨h, hc⟩ <;> rw [h]
  · exact .inl ⟨rfl, hc⟩
  · exact .inr ⟨rfl, hc⟩

/-- A fetch fails for one reason alone: an F2 form whose operand has no address (R184, case 1). -/
theorem fetch_error {s : State} {k : Fault} (h : fetch s = .error k) :
    k = .pcOutOfRange ∧ 255 < uint s.pc + 1 ∧ s.config.pcOverflow = .fault ∧
      ∃ f mk, s.config.opcodeMap.formOf (s.mem.read s.pc) = some f ∧ f.format = .f2 mk := by
  unfold fetch decodeWith at h
  split at h
  · cases h
  · rename_i f hf
    split at h
    · cases h
    · rename_i mk hmk
      rcases fetchOperand_cases s with ⟨ho, _⟩ | ⟨ho, hp, hc⟩
      · rw [ho] at h; cases h
      · rw [ho] at h; cases h; exact ⟨rfl, hp, hc, f, mk, hf, hmk⟩

end Sys2Proof.Machine
end

