-- ==== Sys2Proof/Tests/Slice0.lean ====
section
/-! SUPPORT. The model's own tests: the smoke test of WellFormed, each constructor's word written out from spec/30_encoding.md
R75, one or two vectors of spec/95_test_vectors.md for each instruction, and the witnesses of the statements' hypotheses. -/

namespace Sys2Proof.Tests

open Sys2Proof.Machine Sys2Proof.Safety Sys2Proof.Statement

/-! ### WellFormed: each check refuses an ill-formed term -/

theorem test_wf_refuses_reserved_of_a_form : ¬ (Instr.reserved 0x00).WellFormed .default := by decide
theorem test_wf_accepts_reserved : (Instr.reserved 0x13).WellFormed .default := by decide
theorem test_wf_refuses_map_with_two_forms_on_one_byte :
    ¬ ({ OpcodeMap.default with halt := 0x00 }).Injective := by decide
theorem test_wf_accepts_default_map : OpcodeMap.default.Injective := by decide
theorem test_wf_refuses_depth_zero : ¬ ({ Config.default with stackDepth := .bounded 0 }).WellFormed := by decide
theorem test_wf_accepts_depth_one : ({ Config.default with stackDepth := .bounded 1 }).WellFormed := by decide
theorem test_memory_wf_refuses_unsorted : Memory.wf ⟨[(2, 0x01), (1, 0x01)]⟩ = false := by decide
theorem test_memory_wf_refuses_unlisted_byte : Memory.wf ⟨[(2, 0x00)]⟩ = false := by decide
theorem test_memory_wf_refuses_address_256 : Memory.wf ⟨[(256, 0x01)]⟩ = false := by decide

/-! ### Each constructor's word, from R75 -/

theorem test_decode_nop : decode .default [0b00000000, 0xEE] = .ok (.nop, [0xEE]) := by decide
theorem test_decode_movAccA : decode .default [0b00000001] = .ok (.movAccA, []) := by decide
theorem test_decode_movAAcc : decode .default [0b00000010] = .ok (.movAAcc, []) := by decide
theorem test_decode_movAccCte : decode .default [0b00000011, 0b01100100] = .ok (.movAccCte 100, []) := by decide
theorem test_decode_movAccAtDptr : decode .default [0b00000100] = .ok (.movAccAtDptr, []) := by decide
theorem test_decode_movDptrAcc : decode .default [0b00000101] = .ok (.movDptrAcc, []) := by decide
theorem test_decode_movAtDptrAcc : decode .default [0b00000110] = .ok (.movAtDptrAcc, []) := by decide
theorem test_decode_invAcc : decode .default [0b00000111] = .ok (.invAcc, []) := by decide
theorem test_decode_andAccA : decode .default [0b00001000] = .ok (.andAccA, []) := by decide
theorem test_decode_addAccA : decode .default [0b00001001] = .ok (.addAccA, []) := by decide
theorem test_decode_jmp : decode .default [0b00001010, 0b00000101] = .ok (.jmp 5, []) := by decide
theorem test_decode_jz : decode .default [0b00001011, 0b00001010] = .ok (.jz 10, []) := by decide
theorem test_decode_jn : decode .default [0b00001100, 0b00100000] = .ok (.jn 32, []) := by decide
theorem test_decode_jc : decode .default [0b00001101, 0b00100000] = .ok (.jc 32, []) := by decide
theorem test_decode_call : decode .default [0b00001110, 0b11111111, 0x77] = .ok (.call 255, [0x77]) := by decide
theorem test_decode_ret : decode .default [0b00001111] = .ok (.ret, []) := by decide
theorem test_decode_shlAcc : decode .default [0b00010000] = .ok (.shlAcc, []) := by decide
theorem test_decode_shrAcc : decode .default [0b00010001] = .ok (.shrAcc, []) := by decide
theorem test_decode_halt : decode .default [0b00010010] = .ok (.halt, []) := by decide
theorem test_decode_reserved : decode .default [0b11111111, 0x05] = .ok (.reserved 0xFF, [0x05]) := by decide
theorem test_decode_refuses_nothing : decode .default [] = .error .noOpcode := by decide
theorem test_decode_refuses_missing_operand : decode .default [0b00001110] = .error .noOperand := by decide
theorem test_decodeTableWord_call : decodeTableWord 16 0x080E = some (.call 0x08) := by decide
theorem test_decodeTableWord_drops_high_bits : decodeTableWord 8 0x080E = some (.call 0x00) := by decide

/-! ### Vectors of spec/95_test_vectors.md -/

/-- A created machine with default parameters, at `pc`, with some bytes in memory. -/
def machineAt (pc : Byte) (cells : List Host.Cell) : State := { State.created .default with pc := pc, mem := ⟨cells⟩ }

/-- The same with other parameters. -/
def machineWith (p : PcOverflow) (d : StackDepth) (pc : Byte) (cells : List Host.Cell) : State :=
  { machineAt pc cells with config := { Config.default with pcOverflow := p, stackDepth := d } }

/-- The state one step leaves. -/
def after (s : State) : State := applyHostOp .step s

/-- T1. -/
theorem test_nop : after (machineAt 0x10 []) = machineAt 0x11 [] := by decide
/-- T2 and T3. -/
theorem test_nop_at_FF : after (machineAt 0xFF []) = { machineAt 0xFF [] with status := .faulted .pcOutOfRange } ∧
    (after (machineWith .wrap .unbounded 0xFF [])).pc = 0x00 := by decide
/-- T4. -/
theorem test_movAccA : after { machineAt 0 [(0, 0x01)] with a := 0x80, acc := 0x05, z := false } =
    { machineAt 1 [(0, 0x01)] with a := 0x80, acc := 0x80, z := false, n := true } := by decide
/-- T6. -/
theorem test_movAAcc : (after { machineAt 0 [(0, 0x02)] with acc := 0x64, z := false }).a = 0x64 := by decide
/-- T7. -/
theorem test_movAccCte : after (machineAt 0 [(0, 0x03), (1, 0xFF)]) =
    { machineAt 2 [(0, 0x03), (1, 0xFF)] with acc := 0xFF, z := false, n := true } := by decide
/-- T9, T10 and T11. -/
theorem test_movAccCte_at_the_end :
    (after (machineAt 0xFE [(0xFE, 0x03)])).status = .faulted .pcOutOfRange ∧
    (after (machineAt 0xFF [(0xFF, 0x03)])).status = .faulted .pcOutOfRange ∧
    (after (machineWith .wrap .unbounded 0xFF [(0, 0x7E), (0xFF, 0x03)])).acc = 0x7E ∧
    (after (machineWith .wrap .unbounded 0xFF [(0, 0x7E), (0xFF, 0x03)])).pc = 0x01 := by decide
/-- T12. -/
theorem test_movAccAtDptr : (after { machineAt 0 [(0, 0x04), (0x40, 0xF0)] with dptr := 0x40 }).acc = 0xF0 ∧
    (after { machineAt 0 [(0, 0x04), (0x40, 0xF0)] with dptr := 0x40 }).n = true := by decide
/-- T13. -/
theorem test_movAccAtDptr_own_opcode : (after { machineAt 0x20 [(0x20, 0x04)] with dptr := 0x20 }).acc = 0x04 := by decide
/-- T14. -/
theorem test_movDptrAcc : (after { machineAt 0 [(0, 0x05)] with acc := 0xFF }).dptr = 0xFF := by decide
/-- T15 and T16. -/
theorem test_movAtDptrAcc : (after { machineAt 0 [(0, 0x06)] with acc := 0xF0, dptr := 0x40 }).mem = ⟨[(0, 0x06), (0x40, 0xF0)]⟩ ∧
    (after { machineAt 0xFF [(0xFF, 0x06)] with acc := 0x99, dptr := 0x10 }).mem = ⟨[(0xFF, 0x06)]⟩ := by decide
/-- T17: the next step executes the stored RET. -/
theorem test_movAtDptrAcc_next_instruction :
    (after { machineAt 0x30 [(0x30, 0x06)] with acc := 0x0F, dptr := 0x31 }).pc = 0x31 ∧
    (after (after { machineAt 0x30 [(0x30, 0x06)] with acc := 0x0F, dptr := 0x31 })).status = .faulted .stackUnderflow := by
  decide
/-- T22 and T41. -/
theorem test_invAcc : (after { machineAt 0 [(0, 0x07)] with acc := 0x0F }).acc = 0xF0 ∧
    (after { machineAt 0 [(0, 0x07)] with ovf := true }).ovf = true := by decide
/-- T23. -/
theorem test_andAccA : (after { machineAt 0 [(0, 0x08)] with acc := 0x0F, a := 0xAA }).acc = 0x0A := by decide
/-- T26 (S5). -/
theorem test_addAccA : after { machineAt 0 [(0, 0x09)] with acc := 0x64, a := 0x32, z := false } =
    { machineAt 1 [(0, 0x09)] with acc := 0x96, a := 0x32, z := false, n := true, ovf := true } := by decide
/-- T30 and T34: no unsigned carry, and OVF cleared. -/
theorem test_addAccA_no_overflow : (after { machineAt 0 [(0, 0x09)] with acc := 0xFF, a := 0x01 }).ovf = false ∧
    (after { machineAt 0 [(0, 0x09)] with acc := 0x10, a := 0x10, ovf := true }).ovf = false := by decide
/-- T50 and T51. -/
theorem test_jmp : (after (machineAt 0x08 [(8, 0x0A), (9, 0x05)])).pc = 0x05 ∧
    (after (machineAt 0xFE [(0xFE, 0x0A), (0xFF, 0x30)])).pc = 0x30 := by decide
/-- T52. -/
theorem test_jmp_at_FF : (after (machineAt 0xFF [(0xFF, 0x0A)])).status = .faulted .pcOutOfRange := by decide
/-- T54 and T55. -/
theorem test_jz : (after (machineAt 6 [(6, 0x0B), (7, 0x0A)])).pc = 0x0A ∧
    (after { machineAt 6 [(6, 0x0B), (7, 0x0A)] with acc := 0x01, z := false }).pc = 0x08 := by decide
/-- T56 and T57. -/
theorem test_jz_at_FE : (after (machineAt 0xFE [(0xFE, 0x0B), (0xFF, 0x30)])).pc = 0x30 ∧
    (after { machineAt 0xFE [(0xFE, 0x0B), (0xFF, 0x30)] with z := false }).status = .faulted .pcOutOfRange := by decide
/-- T58 and T59. -/
theorem test_jn : (after { machineAt 4 [(4, 0x0C), (5, 0x20)] with acc := 0x96, z := false, n := true }).pc = 0x20 ∧
    (after { machineAt 4 [(4, 0x0C), (5, 0x20)] with acc := 0x7F, z := false }).pc = 0x06 := by decide
/-- T60 and T61. -/
theorem test_jc : after { machineAt 4 [(4, 0x0D), (5, 0x20)] with ovf := true } =
      { machineAt 0x20 [(4, 0x0D), (5, 0x20)] with ovf := true } ∧
    (after (machineAt 4 [(4, 0x0D), (5, 0x20)])).pc = 0x06 := by decide
/-- T62 and T63. -/
theorem test_call : after (machineAt 5 [(5, 0x0E), (6, 0x08)]) = { machineAt 8 [(5, 0x0E), (6, 0x08)] with stack := [0x07] } ∧
    (after (machineAt 0xFE [(0xFE, 0x0E), (0xFF, 0x10)])).status = .faulted .pcOutOfRange := by decide
/-- T64 and T65. -/
theorem test_call_parameters :
    (after (machineWith .wrap .unbounded 0xFE [(0xFE, 0x0E), (0xFF, 0x10)])).stack = [0x00] ∧
    (after { machineWith .fault (.bounded 2) 0 [(0, 0x0E), (1, 0x10)] with stack := [0x33, 0x22] }).status =
      .faulted .stackOverflow := by decide
/-- T67 and T68 (the model's stack has its top first, log entry 5). -/
theorem test_ret : (after { machineAt 0 [(0, 0x0F)] with stack := [0x07, 0x02] }).pc = 0x07 ∧
    (after { machineAt 0 [(0, 0x0F)] with stack := [0x07, 0x02] }).stack = [0x02] ∧
    (after { machineAt 0xFF [(0xFF, 0x0F)] with stack := [0x10] }).pc = 0x10 := by decide
/-- T69 (S9). -/
theorem test_ret_empty : after (machineAt 3 [(3, 0x0F)]) = { machineAt 3 [(3, 0x0F)] with status := .faulted .stackUnderflow } := by
  decide
/-- T35 and T36. -/
theorem test_shlAcc : (after { machineAt 0 [(0, 0x10)] with acc := 0x55, z := false }).acc = 0xAA ∧
    (after { machineAt 0 [(0, 0x10)] with acc := 0x80, z := false, n := true }).z = true := by decide
/-- T38 and T40. -/
theorem test_shrAcc : (after { machineAt 0 [(0, 0x11)] with acc := 0xF0, z := false, n := true }).acc = 0x78 ∧
    (after { machineAt 0 [(0, 0x11)] with acc := 0x80, z := false, n := true }).n = false := by decide
/-- T70. -/
theorem test_halt : after (machineAt 6 [(6, 0x12)]) = { machineAt 6 [(6, 0x12)] with status := .faulted .unknownInstruction } ∧
    after (after (machineAt 6 [(6, 0x12)])) = after (machineAt 6 [(6, 0x12)]) := by decide
/-- T71: decode comes first. -/
theorem test_reserved : after (machineAt 0xFF [(0xFF, 0xFF)]) =
    { machineAt 0xFF [(0xFF, 0xFF)] with status := .faulted .unknownInstruction } := by decide

/-! ### The host's operations, the linear decode and the assembler -/

/-- S12 and R200. -/
theorem test_reset : hostReset { machineAt 9 [(1, 0x22)] with acc := 5, z := false, stack := [0x01], status := .faulted .stackUnderflow } =
    State.reset := by decide
/-- R202. -/
theorem test_loadProgram : loadProgram [0x0E, 0x04, 0x00] (machineAt 7 [(2, 0x99), (3, 0x55)]) =
    .ok { machineAt 7 [(0, 0x0E), (1, 0x04), (3, 0x55)] with progSize := 3 } := by decide
/-- R79: an F2 record, a reserved byte, and an F2 opcode at `0xFF` without an operand. -/
theorem test_linearDecode : (linearDecode .default ⟨[(0, 0x0E), (1, 0x04), (2, 0x99), (0xFF, 0x0A)]⟩).take 2 =
      [⟨0, 0x0E, some 0x04⟩, ⟨2, 0x99, none⟩] ∧
    (linearDecode .default ⟨[(0, 0x0E), (1, 0x04), (2, 0x99), (0xFF, 0x0A)]⟩).getLast? = some ⟨255, 0x0A, none⟩ := by decide
/-- S1. -/
theorem test_literals : readLiteral ['0', 'X', '1', 'F'] = some 31 ∧ readLiteral ['0', 'B', '1', '0', '1'] = some 5 ∧
    readLiteral ['4', '2'] = some 42 ∧ readLiteral ['2', '5', '6'] = none ∧ readLiteral ['0', 'X', 'Z', 'Z'] = none := by decide
/-- S4: `jmp l` / `l: ; here` / `JMP L`. -/
theorem test_assemble_labels : assemble .default
    ['j', 'm', 'p', ' ', 'l', '\n', 'l', ':', ' ', ';', ' ', 'h', 'e', 'r', 'e', '\n', ' ', 'J', 'M', 'P', ' ', ' ', 'L'] =
    .ok [0x0A, 0x02, 0x0A, 0x02] := by decide
/-- S3. -/
theorem test_assemble_unresolved : assemble .default ['J', 'M', 'P', ' ', 'N', 'O'] = .error (.unresolvedLabel ['N', 'O'] 1) := by
  decide
/-- R83 and R84: a label with an instruction in the other spelling, then a raw data byte. -/
theorem test_assemble_dtpr_and_data : assemble .default
    ['l', ':', ' ', 'm', 'o', 'v', ' ', 'a', 'c', 'c', ',', '[', 'd', 't', 'p', 'r', ']', '\r', '\n', '0', 'x', '5', '5'] =
    .ok [0x04, 0x55] := by decide
/-- R83: a known mnemonic with a signature not in R74, and a line that is nothing. -/
theorem test_assemble_errors : assemble .default ['\n', 'I', 'N', 'V', ' ', 'A'] = .error (.badOperands 2) ∧
    assemble .default ['F', 'O', 'O'] = .error (.badLine 1) := by decide
/-- The machine behind the interface starts as State.reset and its first step runs a NOP. -/
theorem test_core_first_step : core.step core.reset = .next { State.reset with pc := 0x01 } := by rfl

/-! ### Witnesses: a concrete state for each hypothesis of the statements -/

/-- A machine ready to advance: the hypotheses `CanAdvance` and `FlagInv`, at the last `pc` that can advance by 1 and by 2. -/
theorem witness_canAdvance_and_flagInv : CanAdvance (machineAt 0xFE []) 1 ∧ CanAdvance (machineAt 0xFD []) 2 ∧
    FlagInv (machineAt 0xFE []) ∧ CanAdvance (machineWith .wrap .unbounded 0xFF []) 2 := by decide
/-- The hypothesis `CannotAdvance`, at the first `pc` that cannot advance by 1 and by 2. -/
theorem witness_cannotAdvance : CannotAdvance (machineAt 0xFF []) 1 ∧ CannotAdvance (machineAt 0xFE []) 2 := by decide
/-- `ChangesNoFlag` and the frames: an instruction that answers a next state from a state of the flag invariant. -/
theorem witness_changesNoFlag : FlagInv (machineAt 0xFE []) ∧ exec .nop (machineAt 0xFE []) = .next (machineAt 0xFF []) :=
  ⟨by decide, rfl⟩
/-- The last clauses of MovAAccAloneWritesA, MovDptrAccAloneWritesDptr, JcTestsOverflow and the other only-writer clauses. -/
theorem witness_onlyWriter : Instr.nop ≠ .movAAcc ∧ Instr.nop ≠ .movDptrAcc ∧ Instr.nop ≠ .addAccA ∧ Instr.nop ≠ .movAtDptrAcc ∧
    exec .nop (machineAt 0xFE []) = .next (machineAt 0xFF []) := ⟨by decide, by decide, by decide, by decide, rfl⟩
/-- MovAccCteLoadsTheOperandByte's step clause, at the last `pc` that can advance by 2, and where the address wraps. -/
theorem witness_movAccCte_step : (AtForm (machineAt 0xFD [(0xFD, 0x03)]) .movAccCte ∧ CanAdvance (machineAt 0xFD [(0xFD, 0x03)]) 2) ∧
    (AtForm (machineWith .wrap .unbounded 0xFF [(0xFF, 0x03)]) .movAccCte ∧
      CanAdvance (machineWith .wrap .unbounded 0xFF [(0xFF, 0x03)]) 2) := by decide
/-- `FaultsAtOperandFetch` for each F2 form. -/
theorem witness_operandFetch : ∀ f ∈ [Form.movAccCte, .jmp, .jz, .jn, .jc, .call],
    AtForm (machineAt 0xFF [(0xFF, OpcodeMap.default.code f)]) f ∧
      CannotAdvance (machineAt 0xFF [(0xFF, OpcodeMap.default.code f)]) 1 := by decide
/-- MovAtDptrAccStoresOneCell and its store address. -/
theorem witness_store : (machineAt 0xFE []).mem.wf = true ∧ CanAdvance (machineAt 0xFE []) 1 ∧
    storeAddr (machineAt 0xFE []) .atDptr = some 0x00 := by decide
/-- StoredByteIsFetchedNext: a store into the next address, then a state that fetches it, as opcode and as operand. -/
theorem witness_storedByte :
    let s := { machineAt 0x30 [(0x30, 0x06)] with acc := 0x0F, dptr := 0x31 }
    let t := after s
    s.mem.wf = true ∧ AtForm s .movAtDptrAcc ∧ t.status = .running ∧ t.pc = s.dptr ∧
      CanAdvance { t with pc := 0x30 } 1 ∧ ({ t with pc := 0x30 } : State).pc + 1 = s.dptr := by decide
theorem witness_storedByte_step :
    step { machineAt 0x30 [(0x30, 0x06)] with acc := 0x0F, dptr := 0x31 } =
      .next (after { machineAt 0x30 [(0x30, 0x06)] with acc := 0x0F, dptr := 0x31 }) := rfl
/-- OverflowIsTheComparisonOfSigns, OverflowIsASignedSumOutOfRange, OverflowFlagWriterAndReader and JcTestsOverflow: an ADD that runs, and one that faults. -/
theorem witness_add_runs :
    exec .addAccA { machineAt 0xFE [] with acc := 0x7F, a := 0x01 } =
      .next { machineAt 0xFF [] with acc := 0x80, a := 0x01, z := false, n := true, ovf := true } := rfl
theorem witness_add_faults : exec .addAccA (machineAt 0xFF []) = .next (Faulted .pcOutOfRange (machineAt 0xFF [])) := rfl
/-- OppositeSignsOrZeroNeverOverflow: each of its three cases. -/
theorem witness_oppositeSigns : (sint 0x80 < 0 ∧ 0 ≤ sint 0x7F) ∧ (0 ≤ sint 0x7F ∧ sint 0x80 < 0) ∧
    exec .addAccA { machineAt 0 [] with acc := 0x7F, z := false } = .next { machineAt 1 [] with acc := 0x7F, z := false } :=
  ⟨by decide, by decide, rfl⟩
/-- ShlAccDoublesModulo256, ShrAccIsLogicalAndNeverNegative and the last clause of JnTestsNegative. -/
theorem witness_shifts_run : exec .shlAcc (machineAt 0xFE []) = .next (machineAt 0xFF []) ∧
    exec .shrAcc (machineAt 0xFC []) = .next (machineAt 0xFD []) ∧ CanAdvance (machineAt 0xFD []) 2 := ⟨rfl, rfl, by decide⟩
/-- JmpGoesToItsOperand's step clause, at `0xFE`. -/
theorem witness_jmp_step : AtForm (machineAt 0xFE [(0xFE, 0x0A)]) .jmp ∧ CanAdvance (machineAt 0xFE [(0xFE, 0x0A)]) 1 := by decide
/-- `JumpsIf`: each flag set; each clear, where the next address is in range and where it is not. -/
theorem witness_jumpsIf : ({ machineAt 0xFE [] with z := true, n := true, ovf := true } : State).z = true ∧
    ({ machineAt 0xFD [] with z := false } : State).z = false ∧ CanAdvance { machineAt 0xFD [] with z := false } 2 ∧
    CannotAdvance { machineAt 0xFE [] with z := false } 2 ∧ (machineAt 0xFE []).n = false ∧ (machineAt 0xFE []).ovf = false := by
  decide
/-- JzTestsZero and JnTestsNegative under the flag invariant. -/
theorem witness_flags_of_acc : (FlagInv (machineAt 0 []) ∧ (machineAt 0 []).acc = 0x00) ∧
    (FlagInv { machineAt 0 [] with acc := 0x80, z := false, n := true } ∧
      sint ({ machineAt 0 [] with acc := 0x80, z := false, n := true } : State).acc < 0) := by decide
/-- CallPushesReturnAddressAndJumps: unbounded, bounded with room, and full. -/
theorem witness_call : (CanAdvance (machineAt 0xFD []) 2 ∧ (machineAt 0xFD []).config.stackDepth ≠ .bounded (machineAt 0xFD []).stack.length) ∧
    (machineWith .fault (.bounded 1) 0xFD []).config.stackDepth ≠ .bounded (machineWith .fault (.bounded 1) 0xFD []).stack.length ∧
    (CanAdvance { machineWith .fault (.bounded 1) 0xFD [] with stack := [0x02] } 2 ∧
      ({ machineWith .fault (.bounded 1) 0xFD [] with stack := [0x02] } : State).config.stackDepth =
        .bounded ({ machineWith .fault (.bounded 1) 0xFD [] with stack := [0x02] } : State).stack.length) := by decide
/-- RetPopsIntoPc: a stack that is not empty, and an empty one. -/
theorem witness_ret : ({ machineAt 0xFF [] with stack := [0x10] } : State).stack = 0x10 :: [] ∧ (machineAt 0xFF []).stack = [] := by
  decide
/-- RetUndoesCall. -/
theorem witness_callThenRet : exec (.call 0x20) (machineAt 0 []) = .next { machineAt 0x20 [] with stack := [0x02] } ∧
    exec .ret { machineAt 0x20 [] with stack := [0x02] } = .next (machineAt 2 []) := ⟨rfl, rfl⟩
/-- HaltFaultsAndStays and UnknownInstructionExactly. -/
theorem witness_halt : AtForm (machineAt 0xFF [(0xFF, 0x12)]) .halt ∧ isFaulted (after (machineAt 0xFF [(0xFF, 0x12)])) = true := by
  decide
/-- ReservedByteFaults and ReservedByteDecodesAlone: the first and the last reserved byte, and an F2 form. -/
theorem witness_reserved : (machineAt 0 [(0, 0x13)]).config.opcodeMap.SelectsNone ((machineAt 0 [(0, 0x13)]).mem.read 0) ∧
    0x13 ≤ uint 0x13 ∧ 0x13 ≤ uint 0xFF ∧ OpcodeMap.default.formOf 0x12 = some .halt := by decide
theorem witness_reserved_f2 : Form.call.format = .f2 .call := rfl
/-- DecodeOfEncode and EncodeOfDecode, under a map that is not the default. -/
theorem witness_roundTrip : ({ OpcodeMap.default with halt := 0xFF }).Injective ∧
    (Instr.reserved 0x12).WellFormed { OpcodeMap.default with halt := 0xFF } ∧
    decode { OpcodeMap.default with halt := 0xFF } [0xFF, 0x0E] = .ok (.halt, [0x0E]) := by decide
/-- StepRunsTheDecodedInstruction: a form of 1 byte at `0xFF`, and one of 2 bytes at `0xFE`. -/
theorem witness_stepRuns : (decode .default (bytesAtPc (machineAt 0xFF [(0xFF, 0x0F)])) = .ok (.ret, [0x00]) ∧
      (encode .default .ret).length = 1) ∧
    (decode .default (bytesAtPc (machineAt 0xFE [(0xFE, 0x0E), (0xFF, 0x09)])) = .ok (.call 0x09, []) ∧
      CanAdvance (machineAt 0xFE [(0xFE, 0x0E), (0xFF, 0x09)]) 1) := by decide
/-- PlacedWordRunsNext, at State.reset and for a form of 1 byte at `0xFF`. -/
theorem witness_placedWord : (State.reset.config.opcodeMap = .default ∧ State.reset.mem.wf = true ∧
      decodeTableWord 16 0x640A = some (.jmp 0x64) ∧ CanAdvance State.reset 1) ∧
    (decodeTableWord 8 0x0F = some .ret ∧ (encode .default .ret).length = 1) := by decide
/-- RepeatedStepFaultsIdentically, StatusRecordsTheLastStepAndIsNotRead (its fault clause from both sides). -/
theorem witness_repeatedFault : step (machineAt 0 [(0, 0x0F)]) = .next (Faulted .stackUnderflow (machineAt 0 [(0, 0x0F)])) ∧
    firstFault (machineAt 0 [(0, 0x0F)]) = some .stackUnderflow := ⟨rfl, rfl⟩
/-- RunEndsAtTheFirstFault, both ways: no step before the fault, and one step before it with the least fuel that reaches it. -/
theorem witness_run : (RanThrough 0 (machineAt 1 [(1, 0x12)]) (machineAt 1 [(1, 0x12)]) ∧
      runToEnd 1 (machineAt 1 [(1, 0x12)]) = some (Faulted .unknownInstruction (machineAt 1 [(1, 0x12)]))) ∧
    (RanThrough 1 (machineAt 0 [(1, 0x12)]) (machineAt 1 [(1, 0x12)]) ∧
      step (machineAt 1 [(1, 0x12)]) = .next (Faulted .unknownInstruction (machineAt 1 [(1, 0x12)])) ∧
      runToEnd 2 (machineAt 0 [(1, 0x12)]) = some (Faulted .unknownInstruction (machineAt 1 [(1, 0x12)]))) :=
  ⟨⟨⟨rfl, fun _ h => absurd h (Nat.not_lt_zero _)⟩, rfl⟩,
    ⟨rfl, fun j h => ⟨machineAt 1 [(1, 0x12)], by obtain rfl := Nat.lt_one_iff.mp h; rfl, rfl⟩⟩, rfl, rfl⟩
/-- ProgSizeIsOnlyForTheHost, JcTestsOverflow's last clause and LoadProgramCopiesTheImage: an image that fits and one that does not. -/
theorem witness_load : (loadProgram [0x12] State.reset = .ok { machineAt 0 [(0, 0x12)] with progSize := 1 } ∧
      State.reset.mem.wf = true ∧ (List.replicate 256 (0x00 : Byte)).length ≤ 256) ∧
    256 < (List.replicate 257 (0x00 : Byte)).length :=
  ⟨⟨rfl, by decide, by rw [List.length_replicate]⟩, by rw [List.length_replicate]; decide⟩
/-- AuxiliaryRegisterWriterAndReaders: its writer, and an instruction that is no reader. -/
theorem witness_auxiliary : exec .movAAcc { machineAt 0 [] with acc := 0x05, z := false } =
      .next { machineAt 1 [] with acc := 0x05, a := 0x05, z := false } ∧
    Instr.movAAcc ≠ .movAccA ∧ Instr.movAAcc ≠ .andAccA ∧ Instr.movAAcc ≠ .addAccA := ⟨rfl, by decide, by decide, by decide⟩
/-- StackUnderflowExactly, PcOutOfRangeExactly and StackOverflowExactly: each fault happens, and each case of R184. -/
theorem witness_faults_exactly : (after (machineAt 0 [(0, 0x0F)])).status = .faulted .stackUnderflow ∧
    (after (machineAt 0xFF [(0xFF, 0x0A)])).status = .faulted .pcOutOfRange ∧
    (after (machineAt 0xFF [(0xFF, 0x07)])).status = .faulted .pcOutOfRange ∧
    (after (machineAt 0xFE [(0xFE, 0x0D)])).status = .faulted .pcOutOfRange ∧
    (after (machineAt 0xFE [(0xFE, 0x0E)])).status = .faulted .pcOutOfRange ∧
    (after { machineWith .wrap (.bounded 1) 0xFF [(0xFF, 0x0E)] with stack := [0x02] }).status = .faulted .stackOverflow := by
  decide
/-- StepReportsTheFirstFault: one state with no fault and one whose first fault hides a second. -/
theorem witness_firstFault : firstFault (machineAt 0 []) = none ∧
    firstFault { machineWith .fault (.bounded 1) 0xFE [(0xFE, 0x0E)] with stack := [0x02] } = some .pcOutOfRange := by decide
/-- SequentialAddressFaultsOrWraps: each clause at its boundary. -/
theorem witness_seqAddr : seqAddr .default 0xFD 2 = .ok 0xFF ∧ seqAddr .default 0xFE 2 = .error .pcOutOfRange ∧
    seqAddr { Config.default with pcOverflow := .wrap } 0xFF 2 = .ok 0x01 := by decide
/-- StepKeepsInv and HostOperationsKeepInv. -/
theorem witness_inv : MachineInv (machineAt 0xFE [(0xFE, 0x12)]) ∧
    MachineInv { machineWith .wrap (.bounded 1) 0 [] with stack := [0x02] } :=
  ⟨⟨by decide, by decide, by decide, trivial⟩, by decide, by decide, by decide, Nat.le_refl 1⟩
/-- SuccessfulStepDerivesFlags. -/
theorem witness_flagsDerived : step (machineAt 0 [(0, 0x03), (1, 0x80)]) =
    .next { machineAt 2 [(0, 0x03), (1, 0x80)] with acc := 0x80, z := false, n := true } := rfl
/-- CanonicalMemoryIsDeterminedByItsReads. -/
theorem witness_memory : Memory.wf ⟨[(0, 0x01), (255, 0xFF)]⟩ = true := by decide
/-- LinearDecodeCoversMemory. -/
theorem witness_linearDecode : (linearDecode .default .empty)[255]? = some ⟨255, 0x00, none⟩ := by decide
/-- AssembledImageFits: a text that assembles, one with a label, and one of 257 bytes. -/
theorem witness_assembled : assemble .default ['R', 'E', 'T'] = .ok [0x0F] ∧
    passOne .default 1 (splitLines ['L', ':', 'R', 'E', 'T']) ⟨[], [], []⟩ = .ok ⟨[0x0F], [(['L'], 0)], []⟩ := by decide
theorem witness_imageTooLong :
    (match passOne .default 1 (splitLines (List.replicate 257 ['0', '\n']).flatten) ⟨[], [], []⟩ with
      | .ok s => decide (256 < s.image.length)
      | .error _ => false) = true := by decide +kernel

end Sys2Proof.Tests
end

section
/-! SUPPORT. Every meaning taken apart once into the fault it raises and the writes it makes, and from that which fields of the
state it reads. -/

namespace Sys2Proof.Machine

open Sys2Proof.Statement

/-! ### The outcome of a meaning -/

/-- The fault of an advance by `w` bytes (R103, R184). -/
def pastEndFault (s : State) (w : Nat) : Option Fault := if CannotAdvance s w then some .pcOutOfRange else none

/-- The address `w` bytes after `pc`, modulo 256 (R103). -/
def nextPc (s : State) (w : Nat) : Byte := bits8 (uint s.pc + w)

/-- The first fault an instruction raises once its operand is fetched, in the order of R186. -/
def faultOf : Instr → State → Option Fault
  | .nop, s | .movAccA, s | .movAAcc, s | .movAccAtDptr, s | .movDptrAcc, s | .movAtDptrAcc, s
  | .invAcc, s | .andAccA, s | .addAccA, s | .shlAcc, s | .shrAcc, s => pastEndFault s 1
  | .movAccCte _, s => pastEndFault s 2
  | .jmp _, _ => none
  | .jz _, s => if s.z then none else pastEndFault s 2
  | .jn _, s => if s.n then none else pastEndFault s 2
  | .jc _, s => if s.ovf then none else pastEndFault s 2
  | .call _, s =>
    if CannotAdvance s 2 then some .pcOutOfRange
    else if s.config.stackDepth = .bounded s.stack.length then some .stackOverflow else none
  | .ret, s => if s.stack = [] then some .stackUnderflow else none
  | .halt, _ | .reserved _, _ => some .unknownInstruction

/-- The state with the writes of an instruction that raises no fault, before the flags are derived. -/
def writesOf : Instr → State → State
  | .nop, s => { s with pc := nextPc s 1 }
  | .movAccA, s => { s with acc := s.a, pc := nextPc s 1 }
  | .movAAcc, s => { s with a := s.acc, pc := nextPc s 1 }
  | .movAccCte imm8, s => { s with acc := imm8, pc := nextPc s 2 }
  | .movAccAtDptr, s => { s with acc := s.mem.read s.dptr, pc := nextPc s 1 }
  | .movDptrAcc, s => { s with dptr := s.acc, pc := nextPc s 1 }
  | .movAtDptrAcc, s => { s with mem := s.mem.write s.dptr s.acc, pc := nextPc s 1 }
  | .invAcc, s => { s with acc := not8 s.acc, pc := nextPc s 1 }
  | .andAccA, s => { s with acc := and8 s.acc s.a, pc := nextPc s 1 }
  | .addAccA, s =>
    { s with acc := add8 s.acc s.a, ovf := addOverflow s.acc s.a (add8 s.acc s.a), pc := nextPc s 1 }
  | .jmp imm8, s => { s with pc := imm8 }
  | .jz imm8, s => { s with pc := if s.z then imm8 else nextPc s 2 }
  | .jn imm8, s => { s with pc := if s.n then imm8 else nextPc s 2 }
  | .jc imm8, s => { s with pc := if s.ovf then imm8 else nextPc s 2 }
  | .call imm8, s => { s with stack := nextPc s 2 :: s.stack, pc := imm8 }
  | .ret, s => { s with stack := s.stack.tail, pc := s.stack.headD 0x00 }
  | .shlAcc, s => { s with acc := shl8 s.acc, pc := nextPc s 1 }
  | .shrAcc, s => { s with acc := shr8 s.acc, pc := nextPc s 1 }
  | .halt, s | .reserved _, s => s

/-- The state a step without a fault leaves: flags derived from the staged writes, and `Running` (R104, R105). -/
def committed (staged : State) : State := { deriveFlags staged with status := .running }

/-- The end of a step from `s`: the fault it raises, or its writes committed (R105). -/
def outcome (fault : Option Fault) (s staged : State) : Result :=
  match fault with
  | some kind => .next (Faulted kind s)
  | none => .next (committed staged)

@[simp] theorem committed_status (t : State) : (committed t).status = .running := rfl

theorem canAdvance_iff (s : State) (w : Nat) : CanAdvance s w ↔ ¬ CannotAdvance s w := by
  unfold CanAdvance CannotAdvance
  cases s.config.pcOverflow <;> simp

/-- A step that ends at the sequential next address, by its fault. -/
theorem finish_advance (s : State) (w : Nat) (staged : State) :
    finish s (advance s w staged) = outcome (pastEndFault s w) s { staged with pc := nextPc s w } := by
  unfold pastEndFault
  rcases finish_advance_cases s w staged with ⟨h, hc⟩ | ⟨h, hc⟩ <;> rw [h]
  · rw [if_neg ((canAdvance_iff s w).1 hc)]; rfl
  · rw [if_pos hc]; rfl

theorem execJumpIf_eq (flag : Bool) (target : Byte) (s : State) :
    execJumpIf flag target s =
      outcome (if flag then none else pastEndFault s 2) s { s with pc := if flag then target else nextPc s 2 } := by
  cases flag with
  | true => rfl
  | false => exact finish_advance s 2 s

theorem faultOf_call (imm8 : Byte) (s : State) : faultOf (.call imm8) s =
    if CannotAdvance s 2 then some .pcOutOfRange
    else if s.config.stackDepth = .bounded s.stack.length then some .stackOverflow else none := rfl

theorem faultOf_ret (s : State) : faultOf .ret s = if s.stack = [] then some .stackUnderflow else none := rfl

theorem writesOf_ret (s : State) :
    writesOf .ret s = { s with stack := s.stack.tail, pc := s.stack.headD 0x00 } := rfl

theorem execCall_eq (imm8 : Byte) (s : State) :
    execCall imm8 s = outcome (faultOf (.call imm8) s) s (writesOf (.call imm8) s) := by
  unfold execCall
  rw [faultOf_call]
  rcases seqAddr_cases s.config s.pc 2 with ⟨hq, hc⟩ | ⟨hq, hc⟩
  · rw [if_neg ((canAdvance_iff s 2).1 hc)]
    rcases push_cases (bits8 (uint s.pc + 2)) s with ⟨hp, hd⟩ | ⟨hp, hd⟩
    · simp only [hq, hp, if_neg hd]; rfl
    · simp only [hq, hp, if_pos hd]; rfl
  · simp only [hq, if_pos hc]; rfl

theorem execRet_eq (s : State) : execRet s = outcome (faultOf .ret s) s (writesOf .ret s) := by
  unfold execRet
  rw [faultOf_ret, writesOf_ret]
  rcases pop_cases s with ⟨v, rest, hs, hp⟩ | ⟨hs, hp⟩
  · simp only [hp, hs]; rfl
  · simp only [hp, hs]; rfl

/-- What every instruction does: it raises its fault, or its writes are committed. -/
theorem exec_eq_outcome (i : Instr) (s : State) : exec i s = outcome (faultOf i s) s (writesOf i s) := by
  cases i with
  | jmp imm8 => rfl
  | halt => rfl
  | reserved op => rfl
  | jz imm8 => exact execJumpIf_eq s.z imm8 s
  | jn imm8 => exact execJumpIf_eq s.n imm8 s
  | jc imm8 => exact execJumpIf_eq s.ovf imm8 s
  | call imm8 => exact execCall_eq imm8 s
  | ret => exact execRet_eq s
  | _ => exact finish_advance s _ _

/-- `exec_eq_outcome` read from the answer: the faulting state, or the writes committed. -/
theorem exec_next_cases {i : Instr} {s t : State} (h : exec i s = .next t) :
    (∃ kind, faultOf i s = some kind ∧ t = Faulted kind s) ∨ (faultOf i s = none ∧ t = committed (writesOf i s)) := by
  rw [exec_eq_outcome] at h
  cases hf : faultOf i s with
  | some kind => rw [hf] at h; cases h; exact .inl ⟨kind, rfl, rfl⟩
  | none => rw [hf] at h; cases h; exact .inr ⟨rfl, rfl⟩

/-- Two runs of an instruction that raise the same fault answer states related by `g`, where `g` relates what they leave on a
fault and what they commit. -/
theorem exec_next_of_related {i : Instr} {s s' t : State} (g : State → State) (hf : faultOf i s' = faultOf i s)
    (hfault : ∀ kind, Faulted kind s' = g (Faulted kind s))
    (hrun : committed (writesOf i s') = g (committed (writesOf i s))) (h : exec i s = .next t) :
    exec i s' = .next (g t) := by
  rw [exec_eq_outcome, hf]
  rcases exec_next_cases h with ⟨kind, hk, rfl⟩ | ⟨hk, rfl⟩ <;> rw [hk]
  · exact congrArg _ (hfault kind)
  · exact congrArg _ hrun

/-! ### The outcome of a step -/

theorem cannotAdvance_two_of_one {s : State} (h : CannotAdvance s 1) : CannotAdvance s 2 :=
  ⟨Nat.lt_succ_of_lt h.1, h.2⟩

/-- At a form without an operand the first fault is the instruction's own. -/
theorem firstFault_f1 {s : State} {f : Form} {i : Instr} (hf : s.config.opcodeMap.formOf (s.mem.read s.pc) = some f)
    (hi : f.format = .f1 i) : firstFault s = faultOf i s := by
  unfold firstFault
  rw [hf]
  cases f <;> cases hi <;> rfl

/-- At a form with an operand the operand fetch is checked before the instruction (R186); where the instruction itself looks 2
bytes ahead, that check is absorbed by its own. -/
theorem firstFault_f2 {s : State} {f : Form} {mk : Byte → Instr}
    (hf : s.config.opcodeMap.formOf (s.mem.read s.pc) = some f) (hmk : f.format = .f2 mk) (imm8 : Byte) :
    firstFault s = if CannotAdvance s 1 then some .pcOutOfRange else faultOf (mk imm8) s := by
  have absorb (r : Option Fault) : (if CannotAdvance s 2 then some Fault.pcOutOfRange else r) =
      if CannotAdvance s 1 then some .pcOutOfRange else if CannotAdvance s 2 then some .pcOutOfRange else r := by
    split
    · split <;> rfl
    · rw [if_neg (mt cannotAdvance_two_of_one ‹_›)]
  unfold firstFault
  rw [hf]
  cases f with
  | movAccCte => cases hmk; exact absorb none
  | call => cases hmk; exact absorb _
  | jmp | jz | jn | jc => cases hmk; rfl
  | _ => cases hmk

theorem firstFault_reserved {s : State} (hf : s.config.opcodeMap.formOf (s.mem.read s.pc) = none) :
    firstFault s = some .unknownInstruction := by
  unfold firstFault
  rw [hf]

/-- Where the fetch fails, its fault is the first of R186. -/
theorem firstFault_of_fetch_error {s : State} {kind : Fault} (h : fetch s = .error kind) : firstFault s = some kind := by
  obtain ⟨rfl, hp, hc, f, mk, hf, hmk⟩ := fetch_error h
  rw [firstFault_f2 hf hmk 0x00, if_pos ⟨hp, hc⟩]

/-- Where the fetch answers an instruction, the first fault of R186 is the one that instruction raises. -/
theorem firstFault_of_fetch_ok {s : State} {i : Instr} (h : fetch s = .ok i) : firstFault s = faultOf i s := by
  unfold fetch at h
  cases hf : s.config.opcodeMap.formOf (s.mem.read s.pc) with
  | none =>
    rw [decodeWith_reserved hf] at h
    cases h
    exact firstFault_reserved hf
  | some f =>
    cases hi : f.format with
    | f1 j =>
      rw [decodeWith_f1 hf hi] at h
      cases h
      exact firstFault_f1 hf hi
    | f2 mk =>
      rw [decodeWith_f2 hf hi] at h
      rcases fetchOperand_cases s with ⟨ho, hc⟩ | ⟨ho, -⟩ <;> rw [ho] at h <;> cases h
      rw [firstFault_f2 hf hi, if_neg ((canAdvance_iff s 1).1 hc)]

/-- What a step answers: the first fault of R186, or the fetched instruction's writes committed. -/
theorem step_next_cases {s t : State} (h : step s = .next t) :
    (∃ kind, firstFault s = some kind ∧ t = Faulted kind s) ∨
    (∃ i, fetch s = .ok i ∧ firstFault s = none ∧ t = committed (writesOf i s)) := by
  rcases step_cases s with ⟨kind, hf, hs⟩ | ⟨i, hf, hs⟩
  · rw [hs] at h
    cases h
    exact .inl ⟨kind, firstFault_of_fetch_error hf, rfl⟩
  · rw [hs] at h
    rw [firstFault_of_fetch_ok hf]
    rcases exec_next_cases h with ⟨kind, hk, ht⟩ | ⟨hk, ht⟩
    · exact .inl ⟨kind, hk, ht⟩
    · exact .inr ⟨i, hf, hk, ht⟩

/-- Two steps, from `s` and from `s'`, that fetch alike and whose instructions answer states related by `g`. -/
theorem step_next_of_related {s s' t : State} (g : State → State) (hfetch : fetch s' = fetch s)
    (hfault : ∀ kind, Faulted kind s' = g (Faulted kind s))
    (hexec : ∀ i u, exec i s = .next u → exec i s' = .next (g u)) (h : step s = .next t) : step s' = .next (g t) := by
  unfold step at h ⊢
  rw [hfetch]
  cases hf : fetch s with
  | error kind =>
    rw [hf] at h
    cases h
    exact congrArg _ (hfault kind)
  | ok i =>
    rw [hf] at h
    exact hexec i t h

/-- Every step answers a next state. -/
theorem step_next (s : State) : ∃ t, step s = .next t := by
  rcases step_cases s with ⟨kind, -, hs⟩ | ⟨i, -, hs⟩ <;> rw [hs]
  · exact ⟨_, rfl⟩
  · rw [exec_eq_outcome]
    cases faultOf i s <;> exact ⟨_, rfl⟩

/-! ### `status` (R34) -/

theorem faultOf_withStatus (i : Instr) (s : State) (st : Status) : faultOf i { s with status := st } = faultOf i s := by
  cases i <;> rfl

theorem committed_writesOf_withStatus (i : Instr) (s : State) (st : Status) :
    committed (writesOf i { s with status := st }) = committed (writesOf i s) := by
  cases i <;> rfl

theorem step_withStatus (s : State) (st : Status) : step { s with status := st } = step s := by
  have hexec (i : Instr) (u : State) : exec i s = .next u → exec i { s with status := st } = .next u :=
    exec_next_of_related id (faultOf_withStatus i s st) (fun _ => rfl) (committed_writesOf_withStatus i s st)
  obtain ⟨t, ht⟩ := step_next s
  rw [ht]
  exact step_next_of_related (s := s) id rfl (fun _ => rfl) hexec ht

theorem step_status_faulted_iff {s t : State} (h : step s = .next t) (kind : Fault) :
    t.status = .faulted kind ↔ firstFault s = some kind := by
  rcases step_next_cases h with ⟨k, hk, rfl⟩ | ⟨i, -, hn, rfl⟩
  · simp [hk]
  · simp [hn]

/-! ### `progSize` (R33) -/

theorem writesOf_progSize (i : Instr) (s : State) : (writesOf i s).progSize = s.progSize := by cases i <;> rfl

theorem faultOf_withProgSize (i : Instr) (s : State) (n : Fin 257) :
    faultOf i { s with progSize := n } = faultOf i s := by
  cases i <;> rfl

theorem writesOf_withProgSize (i : Instr) (s : State) (n : Fin 257) :
    writesOf i { s with progSize := n } = { writesOf i s with progSize := n } := by
  cases i <;> rfl

theorem step_progSize {s t : State} (h : step s = .next t) : t.progSize = s.progSize := by
  rcases step_next_cases h with ⟨kind, -, rfl⟩ | ⟨i, -, -, rfl⟩
  · rfl
  · exact writesOf_progSize i s

theorem step_withProgSize {s t : State} (n : Fin 257) (h : step s = .next t) :
    step { s with progSize := n } = .next { t with progSize := n } := by
  have hexec (i : Instr) (u : State) :
      exec i s = .next u → exec i { s with progSize := n } = .next { u with progSize := n } :=
    exec_next_of_related (fun u => { u with progSize := n }) (faultOf_withProgSize i s n) (fun _ => rfl)
      (congrArg committed (writesOf_withProgSize i s n))
  exact step_next_of_related (s := s) (fun u => { u with progSize := n }) rfl (fun _ => rfl) hexec h

/-! ### `OVF` (R30) -/

theorem writesOf_ovf {i : Instr} (hi : i ≠ .addAccA) (s : State) : (writesOf i s).ovf = s.ovf := by
  cases i with
  | addAccA => exact absurd rfl hi
  | _ => rfl

theorem faultOf_withOvf {i : Instr} (hi : ∀ imm8, i ≠ .jc imm8) (s : State) (b : Bool) :
    faultOf i { s with ovf := b } = faultOf i s := by
  cases i with
  | jc imm8 => exact absurd rfl (hi imm8)
  | _ => rfl

theorem writesOf_add_withOvf (s : State) (b : Bool) :
    writesOf .addAccA { s with ovf := b } = writesOf .addAccA s := rfl

theorem writesOf_withOvf {i : Instr} (hadd : i ≠ .addAccA) (hjc : ∀ imm8, i ≠ .jc imm8) (s : State) (b : Bool) :
    writesOf i { s with ovf := b } = { writesOf i s with ovf := b } := by
  cases i with
  | addAccA => exact absurd rfl hadd
  | jc imm8 => exact absurd rfl (hjc imm8)
  | _ => rfl

theorem exec_ovf {i : Instr} {s t : State} (hi : i ≠ .addAccA) (h : exec i s = .next t) : t.ovf = s.ovf := by
  rcases exec_next_cases h with ⟨kind, -, rfl⟩ | ⟨-, rfl⟩
  · rfl
  · exact writesOf_ovf hi s

/-- ADD keeps OVF where it faults, and writes the signed overflow where it runs. -/
theorem execAdd_ovf {s t : State} (h : exec .addAccA s = .next t) :
    (∃ kind, t.status = .faulted kind ∧ t.ovf = s.ovf) ∨
    (t.status = .running ∧ t.ovf = addOverflow s.acc s.a (add8 s.acc s.a)) := by
  rcases exec_next_cases h with ⟨kind, -, rfl⟩ | ⟨-, rfl⟩
  · exact .inl ⟨kind, rfl, rfl⟩
  · exact .inr ⟨rfl, rfl⟩

/-- The answer `t` from `s` against the answer from `s` with the OVF `b`: only an ADD that runs hides the OVF before it. -/
theorem exec_withOvf {i : Instr} {s t : State} (b : Bool) (hjc : ∀ imm8, i ≠ .jc imm8) (h : exec i s = .next t) :
    exec i { s with ovf := b } =
      .next (if i = .addAccA ∧ t.status = .running then t else { t with ovf := b }) := by
  refine exec_next_of_related (fun u => if i = .addAccA ∧ u.status = .running then u else { u with ovf := b })
    (faultOf_withOvf hjc s b) (fun kind => by simp) ?_ h
  by_cases hadd : i = .addAccA
  · subst hadd
    rw [writesOf_add_withOvf, if_pos ⟨rfl, rfl⟩]
  · rw [writesOf_withOvf hadd hjc, if_neg fun hc => hadd hc.1]
    rfl

/-! ### `A` (R24) -/

theorem writesOf_a {i : Instr} (hi : i ≠ .movAAcc) (s : State) : (writesOf i s).a = s.a := by
  cases i with
  | movAAcc => exact absurd rfl hi
  | _ => rfl

theorem faultOf_withA (i : Instr) (s : State) (v : Byte) : faultOf i { s with a := v } = faultOf i s := by
  cases i <;> rfl

theorem writesOf_movAAcc_withA (s : State) (v : Byte) :
    writesOf .movAAcc { s with a := v } = writesOf .movAAcc s := rfl

theorem writesOf_withA {i : Instr} (hmova : i ≠ .movAAcc) (hmov : i ≠ .movAccA) (hand : i ≠ .andAccA)
    (hadd : i ≠ .addAccA) (s : State) (v : Byte) : writesOf i { s with a := v } = { writesOf i s with a := v } := by
  cases i with
  | movAAcc => exact absurd rfl hmova
  | movAccA => exact absurd rfl hmov
  | andAccA => exact absurd rfl hand
  | addAccA => exact absurd rfl hadd
  | _ => rfl

theorem exec_a {i : Instr} {s t : State} (hi : i ≠ .movAAcc) (h : exec i s = .next t) : t.a = s.a := by
  rcases exec_next_cases h with ⟨kind, -, rfl⟩ | ⟨-, rfl⟩
  · rfl
  · exact writesOf_a hi s

/-- The answer `t` from `s` against the answer from `s` with `v` in A: only a MOV A,ACC that runs hides the A before it. -/
theorem exec_withA {i : Instr} {s t : State} (v : Byte) (hmov : i ≠ .movAccA) (hand : i ≠ .andAccA)
    (hadd : i ≠ .addAccA) (h : exec i s = .next t) :
    exec i { s with a := v } = .next (if i = .movAAcc ∧ t.status = .running then t else { t with a := v }) := by
  refine exec_next_of_related (fun u => if i = .movAAcc ∧ u.status = .running then u else { u with a := v })
    (faultOf_withA i s v) (fun kind => by simp) ?_ h
  by_cases hmova : i = .movAAcc
  · subst hmova
    rw [writesOf_movAAcc_withA, if_pos ⟨rfl, rfl⟩]
  · rw [writesOf_withA hmova hmov hand hadd, if_neg fun hc => hmova hc.1]
    rfl

end Sys2Proof.Machine
end

section
/-! The statements of spec/10_state.md. -/

namespace Sys2Proof.Proofs

open Sys2Proof.Machine Sys2Proof.Statement

/-- Settles O34. A step takes the first fault of R186 or commits, and a commit overwrites `status`, which nothing else reads. -/
theorem statusRecordsTheLastStepAndIsNotRead : Obligations.StatusRecordsTheLastStepAndIsNotRead := by
  refine ⟨fun s => rfl, fun s t h => ?_, fun s t kind h => step_status_faulted_iff h kind, step_withStatus⟩
  rcases step_next_cases h with ⟨kind, -, rfl⟩ | ⟨i, -, -, rfl⟩
  · exact .inr ⟨kind, rfl, rfl⟩
  · exact .inl rfl

/-- Settles O35. Neither the fetch, nor an instruction's fault, nor its writes depend on `progSize`. -/
theorem progSizeIsOnlyForTheHost : Obligations.ProgSizeIsOnlyForTheHost := by
  refine ⟨fun s t n h => ⟨step_progSize h, step_withProgSize n h⟩, fun image s t h => ?_, fun s => rfl⟩
  rcases loadProgram_cases image s with ⟨n, hn, hl⟩ | ⟨-, hl⟩ <;> rw [hl] at h <;> cases h
  exact hn

/-- Settles O36, from the writes of ADD and the faults of JC, the only ones where OVF occurs. -/
theorem overflowFlagWriterAndReader : Obligations.OverflowFlagWriterAndReader := by
  refine ⟨fun i s t => exec_ovf, fun s t kind h hs => ?_, fun s t h hs => ?_, fun i s t b => exec_withOvf b,
    created_ovf⟩
  · rcases execAdd_ovf h with ⟨-, -, ho⟩ | ⟨hr, -⟩
    · exact ho
    · rw [hr] at hs; cases hs
  · rcases execAdd_ovf h with ⟨k, hk, -⟩ | ⟨-, ho⟩
    · rw [hk] at hs; cases hs
    · exact ho

/-- Settles O37: no fault depends on A, and only the writes of MOV A,ACC, MOV ACC,A, AND and ADD name it. -/
theorem auxiliaryRegisterWriterAndReaders : Obligations.AuxiliaryRegisterWriterAndReaders :=
  ⟨fun _ _ _ => exec_a, fun _ _ _ v => exec_withA v⟩

end Sys2Proof.Proofs
end

section
/-! SUPPORT. The decoder at a byte that selects an F2 form, and the bytes of the default map. -/

namespace Sys2Proof

/-! ### Length and decoding by the form selected -/

/-- The length of an instruction is 2 exactly where its opcode selects an F2 form (R70, R71). -/
theorem OpcodeMap.lengthAt_eq_two_iff (m : OpcodeMap) (op : Byte) :
    m.lengthAt op = 2 ↔ ∃ f mk, m.formOf op = some f ∧ f.format = .f2 mk := by
  unfold OpcodeMap.lengthAt
  cases m.formOf op with
  | none => simp
  | some f => cases hf : f.format <;> simp [Format.length, hf]

/-- A byte that selects an F2 form decodes with the byte after it, whatever that byte is. -/
theorem decode_f2 {m : OpcodeMap} {op : Byte} {f : Form} {mk : Byte → Instr} (hf : m.formOf op = some f)
    (hmk : f.format = .f2 mk) (imm8 : Byte) (rest : List Byte) :
    decode m (op :: imm8 :: rest) = .ok (mk imm8, rest) := by
  have hlen : m.lengthAt op = 2 := (m.lengthAt_eq_two_iff op).2 ⟨f, mk, hf, hmk⟩
  simp only [decode, decodeWith_f2 hf hmk, Except.map, hlen]
  rfl

/-! ### The default map -/

theorem OpcodeMap.default_injective : OpcodeMap.default.Injective := by decide

/-- The default map numbers the forms from 0 on in the order of R74. -/
theorem OpcodeMap.map_default_code : Form.all.map OpcodeMap.default.code = (List.range 0x13).map bits8 := by decide

theorem OpcodeMap.selectsNone_iff_notMem (m : OpcodeMap) (op : Byte) :
    m.SelectsNone op ↔ op ∉ Form.all.map m.code := by
  simp [OpcodeMap.SelectsNone]

theorem mem_map_bits8_range_iff {n : Nat} (hn : n ≤ 256) (b : Byte) : b ∈ (List.range n).map bits8 ↔ uint b < n := by
  rw [List.mem_map]
  constructor
  · rintro ⟨k, hk, rfl⟩
    rw [List.mem_range] at hk
    rwa [uint, BitVec.toNat_ofNat, Nat.mod_eq_of_lt (by omega)]
  · exact fun h => ⟨uint b, List.mem_range.2 h, (BitVec.ofNat_toNat 8 b).trans (BitVec.setWidth_eq b)⟩

theorem OpcodeMap.default_selectsNone_iff (op : Byte) : OpcodeMap.default.SelectsNone op ↔ 0x13 ≤ uint op := by
  rw [OpcodeMap.selectsNone_iff_notMem, OpcodeMap.map_default_code, mem_map_bits8_range_iff (by decide), Nat.not_lt]

end Sys2Proof
end

section
/-! SUPPORT. A step at a byte that selects no form, and the linear decode as one record after another. -/

namespace Sys2Proof.Machine

open Sys2Proof.Statement

theorem fetch_reserved {s : State} (h : s.config.opcodeMap.SelectsNone (s.mem.read s.pc)) :
    fetch s = .ok (.reserved (s.mem.read s.pc)) :=
  decodeWith_reserved ((s.config.opcodeMap.formOf_none_iff _).2 h) _

theorem exec_reserved (op : Byte) (s : State) : exec (.reserved op) s = .next (Faulted .unknownInstruction s) := rfl

theorem exec_halt (s : State) : exec .halt s = .next (Faulted .unknownInstruction s) := rfl

theorem step_reserved {s : State} (h : s.config.opcodeMap.SelectsNone (s.mem.read s.pc)) :
    step s = .next (Faulted .unknownInstruction s) := by
  unfold step
  rw [fetch_reserved h]
  exact exec_reserved _ s

/-! ### The linear decode (R79) -/

/-- The record R79 emits at address `p`. -/
def recordAt (c : OpcodeMap) (m : Memory) (p : Nat) : DecodeRecord where
  addr := p
  op := m.read (bits8 p)
  operand := if c.lengthAt (m.read (bits8 p)) = 2 ∧ p ≤ 254 then some (m.read (bits8 (p + 1))) else none

/-- The linear decode emits the record at `p` and goes on past the bytes it covers. -/
theorem linearDecodeFrom_succ (c : OpcodeMap) (m : Memory) (fuel : Nat) {p : Nat} (hp : p ≤ 255) :
    linearDecodeFrom c m (fuel + 1) p =
      recordAt c m p :: linearDecodeFrom c m fuel (p + (recordAt c m p).bytes.length) := by
  rw [linearDecodeFrom, if_pos hp]
  unfold recordAt
  by_cases h : c.lengthAt (m.read (bits8 p)) = 2 ∧ p ≤ 254
  · simp only [if_pos h]; rfl
  · simp only [if_neg h]; rfl

theorem linearDecodeFrom_past_end (c : OpcodeMap) (m : Memory) (fuel : Nat) {p : Nat} (hp : 255 < p) :
    linearDecodeFrom c m fuel p = [] := by
  cases fuel with
  | zero => rfl
  | succ fuel => rw [linearDecodeFrom, if_neg (by omega)]

/-- A record covers the bytes of memory from its address on: at least one, and none past address 255. -/
theorem recordAt_bytes (c : OpcodeMap) (m : Memory) {p : Nat} (hp : p ≤ 255) :
    ∃ n, 1 ≤ n ∧ p + n ≤ 256 ∧ (recordAt c m p).bytes = (List.range' p n).map (fun k => m.read (bits8 k)) := by
  unfold recordAt DecodeRecord.bytes
  by_cases h : c.lengthAt (m.read (bits8 p)) = 2 ∧ p ≤ 254
  · exact ⟨2, by decide, by omega, by simp only [if_pos h]; rfl⟩
  · exact ⟨1, by decide, by omega, by simp only [if_neg h]; rfl⟩

/-- With fuel for every byte left, the records from `p` on cover the bytes from `p` to 255. -/
theorem linearDecodeFrom_bytes (c : OpcodeMap) (m : Memory) : ∀ {fuel p : Nat}, p ≤ 256 → 256 ≤ p + fuel →
    (linearDecodeFrom c m fuel p).flatMap DecodeRecord.bytes =
      (List.range' p (256 - p)).map (fun k => m.read (bits8 k)) := by
  intro fuel
  induction fuel with
  | zero =>
    intro p hp hfuel
    obtain rfl : p = 256 := by omega
    rfl
  | succ fuel ih =>
    intro p hp hfuel
    by_cases hend : p = 256
    · subst hend
      rw [linearDecodeFrom_past_end c m _ (by decide)]
      rfl
    · have hp' : p ≤ 255 := by omega
      obtain ⟨n, hn, hle, hbytes⟩ := recordAt_bytes c m hp'
      have hlen : (recordAt c m p).bytes.length = n := by rw [hbytes, List.length_map, List.length_range']
      have hsplit : List.range' p (256 - p) = List.range' p n ++ List.range' (p + n) (256 - (p + n)) := by
        rw [List.range'_append_1]
        congr 1
        omega
      rw [linearDecodeFrom_succ c m fuel hp', List.flatMap_cons, hlen, ih hle (by omega), hbytes, hsplit,
        List.map_append]

/-- Each record is the one at the address its predecessors' bytes lead to from `p`, and that address is in memory. -/
theorem linearDecodeFrom_getElem? (c : OpcodeMap) (m : Memory) {r : DecodeRecord} : ∀ {fuel p i : Nat},
    (linearDecodeFrom c m fuel p)[i]? = some r →
    r.addr = p + (((linearDecodeFrom c m fuel p).take i).flatMap DecodeRecord.bytes).length ∧ r.addr ≤ 255 ∧
      r = recordAt c m r.addr := by
  intro fuel
  induction fuel with
  | zero =>
    intro p i h
    cases h
  | succ fuel ih =>
    intro p i h
    by_cases hp : p ≤ 255
    · rw [linearDecodeFrom_succ c m fuel hp] at h ⊢
      cases i with
      | zero =>
        cases h
        exact ⟨rfl, hp, rfl⟩
      | succ i =>
        obtain ⟨haddr, hle, hr⟩ := ih h
        refine ⟨?_, hle, hr⟩
        rw [haddr, List.take_succ_cons, List.flatMap_cons, List.length_append, Nat.add_assoc]
    · rw [linearDecodeFrom_past_end c m _ (by omega)] at h
      cases h

end Sys2Proof.Machine
end

section
/-! The statements of spec/30_encoding.md. -/

namespace Sys2Proof.Proofs

open Sys2Proof.Machine

/-- Settles O26. The fetch of a byte that selects no form is the reserved instruction, and the default map numbers its 19 forms
from 0 on, so what it leaves over begins at `0x13`. -/
theorem reservedByteFaults : Obligations.ReservedByteFaults :=
  ⟨exec_reserved, fun _ => step_reserved, OpcodeMap.default_selectsNone_iff, exec_halt,
    fun f _ imm8 rest hmk => decode_f2 (OpcodeMap.default_injective.formOf_code f) hmk imm8 rest⟩

/-- Settles O54. The linear decode is the record at each address reached, and a record's bytes are those from its address on. -/
theorem linearDecodeCoversMemory : Obligations.LinearDecodeCoversMemory := by
  intro c m
  refine ⟨?_, fun i r h => ?_⟩
  · rw [List.range_eq_range']
    exact linearDecodeFrom_bytes c m (Nat.zero_le 256) (Nat.le_refl 256)
  · obtain ⟨haddr, hle, hr⟩ := linearDecodeFrom_getElem? c m h
    have hop : r.op = m.read (bits8 r.addr) := congrArg DecodeRecord.op hr
    have hoperand : r.operand = (recordAt c m r.addr).operand := congrArg DecodeRecord.operand hr
    rw [hop, ← c.lengthAt_eq_two_iff]
    exact ⟨haddr.trans (Nat.zero_add _), hle, rfl, fun hc => hoperand.trans (if_pos hc),
      fun hc => hoperand.trans (if_neg hc)⟩

end Sys2Proof.Proofs
end

section
/-! SUPPORT. The number a wrapped address stands for, and the flag invariant at the end of a step. -/

namespace Sys2Proof.Machine

open Sys2Proof.Safety Sys2Proof.Statement

/-! ### Addresses modulo 256 (R9) -/

theorem uint_bits8_of_le {n : Nat} (h : n ≤ 255) : uint (bits8 n) = n := by
  rw [uint, BitVec.toNat_ofNat, Nat.mod_eq_of_lt (by omega)]

theorem uint_bits8_of_wrap {n : Nat} (hlo : 255 < n) (hhi : n < 512) : uint (bits8 n) = n - 256 := by
  rw [uint, BitVec.toNat_ofNat]
  omega

/-! ### The flag invariant (R104, R110) -/

theorem committed_flagInv (staged : State) : FlagInv (committed staged) := ⟨rfl, rfl⟩

/-- A fault writes neither the flags nor ACC, and a commit derives the flags from the ACC it leaves. -/
theorem step_flagInv {s t : State} (hs : FlagInv s) (h : step s = .next t) : FlagInv t := by
  rcases step_next_cases h with ⟨kind, -, rfl⟩ | ⟨i, -, -, rfl⟩
  · exact hs
  · exact committed_flagInv _

/-- A step that runs leaves the flag invariant, whatever state it began in. -/
theorem flagInv_of_step_running {s t : State} (h : step s = .next t) (hr : t.status = .running) : FlagInv t := by
  rcases step_next_cases h with ⟨kind, -, rfl⟩ | ⟨i, -, -, rfl⟩
  · cases hr
  · exact committed_flagInv _

/-- Under the flag invariant Z and N are functions of ACC. -/
theorem flags_eq_of_acc_eq {s t : State} (hs : FlagInv s) (ht : FlagInv t) (hacc : t.acc = s.acc) :
    t.z = s.z ∧ t.n = s.n := by
  obtain ⟨hsz, hsn⟩ := hs
  obtain ⟨htz, htn⟩ := ht
  rw [hsz, hsn, htz, htn, hacc]
  exact ⟨rfl, rfl⟩

end Sys2Proof.Machine
end

section
/-! The statements of spec/40_step_cycle.md. -/

namespace Sys2Proof.Proofs

open Sys2Proof.Machine

/-- Settles O44. Below 256 the address is the sum itself; past it, `k` is too small for the sum to wrap twice. -/
theorem sequentialAddressFaultsOrWraps : Obligations.SequentialAddressFaultsOrWraps := by
  intro c p k hk
  have hp : uint p < 256 := p.isLt
  refine ⟨fun h => ?_, fun h hw => ?_, seqAddr_error⟩
  · exact ⟨_, seqAddr_ok (.inl h), uint_bits8_of_le h⟩
  · exact ⟨_, seqAddr_ok (.inr hw), uint_bits8_of_wrap h (by omega)⟩

/-- Settles O49. A step that runs commits, so it leaves the flag invariant; a step from that invariant keeps it, and there the
flags are functions of ACC. OVF is written by ADD alone. -/
theorem successfulStepDerivesFlags : Obligations.SuccessfulStepDerivesFlags := by
  refine ⟨fun s t h hr => ?_, fun s t hs h hacc => ?_, fun i s t => exec_ovf⟩
  · exact flagInv_of_step_running h hr
  · exact flags_eq_of_acc_eq hs (step_flagInv hs h) hacc

end Sys2Proof.Proofs
end

section
/-! SUPPORT. The decoder at the byte of an F1 form, the meanings that end at the sequential next address in the words of the
statements, and the step at an F2 form. -/

namespace Sys2Proof

/-- A byte that selects an F1 form decodes alone, whatever follows it. -/
theorem decode_f1 {m : OpcodeMap} {op : Byte} {f : Form} {i : Instr} (hf : m.formOf op = some f)
    (hi : f.format = .f1 i) (rest : List Byte) : decode m (op :: rest) = .ok (i, rest) := by
  have hlen : m.lengthAt op = 1 := by simp only [OpcodeMap.lengthAt, hf, hi, Format.length]
  simp only [decode, decodeWith_f1 hf hi, hlen]
  rfl

theorem decode_default_f1 {f : Form} {i : Instr} (hi : f.format = .f1 i) (rest : List Byte) :
    decode .default (OpcodeMap.default.code f :: rest) = .ok (i, rest) :=
  decode_f1 (OpcodeMap.default_injective.formOf_code f) hi rest

theorem decode_default_f2 {f : Form} {mk : Byte → Instr} (hmk : f.format = .f2 mk) (imm8 : Byte) (rest : List Byte) :
    decode .default (OpcodeMap.default.code f :: imm8 :: rest) = .ok (mk imm8, rest) :=
  decode_f2 (OpcodeMap.default_injective.formOf_code f) hmk imm8 rest

end Sys2Proof

namespace Sys2Proof.Machine

open Sys2Proof.Safety Sys2Proof.Statement

/-! ### The outcome of a meaning in the words of the statements -/

theorem zeroTest_eq_decide (v : Byte) : zeroTest v = decide (v = 0x00) := rfl

/-- Bit 7 is set exactly where the two's-complement reading is negative (R9, R29). -/
theorem signTest_eq_decide (v : Byte) : signTest v = decide (sint v < 0) :=
  (BitVec.msb_eq_getLsbD_last v).symm.trans (BitVec.msb_eq_toInt (x := v))

theorem committed_eq_done (t : State) : committed t = Done t := by
  simp only [committed, deriveFlags, zeroTest_eq_decide, signTest_eq_decide]

/-- The address `w` bytes on is the sum of bytes, since both are taken modulo 256. -/
theorem nextPc_eq_add (s : State) (w : Nat) : nextPc s w = s.pc + bits8 w := by
  rw [nextPc, bits8, BitVec.ofNat_add, BitVec.ofNat_toNat, BitVec.setWidth_eq]

theorem pastEndFault_of_canAdvance {s : State} {w : Nat} (h : CanAdvance s w) : pastEndFault s w = none :=
  if_neg ((canAdvance_iff s w).1 h)

theorem pastEndFault_of_cannotAdvance {s : State} {w : Nat} (h : CannotAdvance s w) :
    pastEndFault s w = some .pcOutOfRange :=
  if_pos h

theorem exec_of_faultOf_none {i : Instr} {s : State} (h : faultOf i s = none) :
    exec i s = .next (Done (writesOf i s)) := by
  rw [exec_eq_outcome, h, ← committed_eq_done]
  rfl

theorem exec_of_faultOf_some {i : Instr} {s : State} {kind : Fault} (h : faultOf i s = some kind) :
    exec i s = .next (Faulted kind s) := by
  rw [exec_eq_outcome, h]
  rfl

/-- An instruction of `w` bytes that ends at the sequential next address runs where that address exists. -/
theorem exec_of_canAdvance {i : Instr} {s staged : State} {w : Nat} (hf : faultOf i s = pastEndFault s w)
    (hw : writesOf i s = { staged with pc := nextPc s w }) (h : CanAdvance s w) :
    exec i s = .next (Done { staged with pc := s.pc + bits8 w }) := by
  rw [exec_of_faultOf_none (hf.trans (pastEndFault_of_canAdvance h)), hw, nextPc_eq_add]

theorem faultsPastEnd_of_faultOf {i : Instr} {w : Nat} (hf : ∀ s, faultOf i s = pastEndFault s w) :
    FaultsPastEnd i w := fun s h =>
  exec_of_faultOf_some ((hf s).trans (pastEndFault_of_cannotAdvance h))

/-! ### What a meaning leaves unchanged -/

/-- An instruction that keeps ACC recomputes Z and N to what the flag invariant says they were, and OVF has one writer, ADD. -/
theorem changesNoFlag_of_writesOf_acc {i : Instr} (hacc : ∀ s, (writesOf i s).acc = s.acc) (hadd : i ≠ .addAccA) :
    ChangesNoFlag i := by
  intro s t hs h
  have hovf : t.ovf = s.ovf := exec_ovf hadd h
  rcases exec_next_cases h with ⟨kind, -, rfl⟩ | ⟨-, rfl⟩
  · exact ⟨rfl, rfl, hovf⟩
  · obtain ⟨hz, hn⟩ := flags_eq_of_acc_eq hs (committed_flagInv (writesOf i s)) (hacc s)
    exact ⟨hz, hn, hovf⟩

theorem writesOf_dptr {i : Instr} (hi : i ≠ .movDptrAcc) (s : State) : (writesOf i s).dptr = s.dptr := by
  cases i with
  | movDptrAcc => exact absurd rfl hi
  | _ => rfl

theorem exec_dptr {i : Instr} {s t : State} (hi : i ≠ .movDptrAcc) (h : exec i s = .next t) : t.dptr = s.dptr := by
  rcases exec_next_cases h with ⟨kind, -, rfl⟩ | ⟨-, rfl⟩
  · rfl
  · exact writesOf_dptr hi s

/-! ### The step at an F2 form -/

theorem canAdvance_one_of_two {s : State} (h : CanAdvance s 2) : CanAdvance s 1 :=
  (canAdvance_iff s 1).2 fun hc => (canAdvance_iff s 2).1 h (cannotAdvance_two_of_one hc)

theorem fetchOperand_of_canAdvance {s : State} (h : CanAdvance s 1) :
    fetchOperand s = .ok (s.mem.read (s.pc + 1)) := by
  have hpc : bits8 (uint s.pc + 1) = s.pc + 1 := nextPc_eq_add s 1
  rw [fetchOperand, seqAddr_ok h, hpc]

theorem fetchOperand_of_cannotAdvance {s : State} (h : CannotAdvance s 1) : fetchOperand s = .error .pcOutOfRange := by
  rw [fetchOperand, seqAddr_error h.1 h.2]

/-- At the byte of an F2 form the fetch is the operand fetch. -/
theorem fetch_of_atForm_f2 {s : State} {f : Form} {mk : Byte → Instr} (h : AtForm s f) (hmk : f.format = .f2 mk) :
    fetch s = (fetchOperand s).map mk := by
  obtain ⟨hinj, hop⟩ := h
  exact decodeWith_f2 (hop ▸ hinj.formOf_code f) hmk (fetchOperand s)

/-- At an F2 form whose operand has an address, the step runs the form on the byte after the opcode. -/
theorem step_of_atForm_f2 {s : State} {f : Form} {mk : Byte → Instr} (h : AtForm s f) (hmk : f.format = .f2 mk)
    (hc : CanAdvance s 1) : step s = exec (mk (s.mem.read (s.pc + 1))) s := by
  rw [step, fetch_of_atForm_f2 h hmk, fetchOperand_of_canAdvance hc]
  rfl

theorem faultsAtOperandFetch_of_f2 {f : Form} {mk : Byte → Instr} (hmk : f.format = .f2 mk) :
    FaultsAtOperandFetch f := by
  intro s h hc
  rw [step, fetch_of_atForm_f2 h hmk, fetchOperand_of_cannotAdvance hc]
  rfl

end Sys2Proof.Machine
end

section
/-! The statements of spec/41_data_transfer.md. -/

namespace Sys2Proof.Proofs

open Sys2Proof.Machine Sys2Proof.Statement

/-- Settles O1. NOP stages no write but `pc`, so ACC and with it Z and N stay. -/
theorem nopAdvancesAndNothingElse : Obligations.NopAdvancesAndNothingElse :=
  ⟨decode_default_f1 (f := .nop) rfl, fun s => exec_of_canAdvance (staged := s) rfl rfl,
    faultsPastEnd_of_faultOf fun _ => rfl, changesNoFlag_of_writesOf_acc (fun _ => rfl) nofun⟩

/-- Settles O2, from the one write MOV ACC,A stages beside `pc`. -/
theorem movAccACopiesAIntoAcc : Obligations.MovAccACopiesAIntoAcc :=
  ⟨decode_default_f1 (f := .movAccA) rfl, fun s => exec_of_canAdvance (staged := { s with acc := s.a }) rfl rfl,
    faultsPastEnd_of_faultOf fun _ => rfl⟩

/-- Settles O3. That A has no other writer is `exec_a`, by cases over the writes of every instruction. -/
theorem movAAccAloneWritesA : Obligations.MovAAccAloneWritesA :=
  ⟨decode_default_f1 (f := .movAAcc) rfl, fun s => exec_of_canAdvance (staged := { s with a := s.acc }) rfl rfl,
    faultsPastEnd_of_faultOf fun _ => rfl, changesNoFlag_of_writesOf_acc (fun _ => rfl) nofun,
    fun _ _ _ => exec_a⟩

/-- Settles O4. The step is the operand fetch at `pc + 1`, which has an address wherever `pc + 2` has one, and then the
meaning on the byte fetched. -/
theorem movAccCteLoadsTheOperandByte : Obligations.MovAccCteLoadsTheOperandByte := by
  have hexec (imm8 : Byte) (s : State) (h : CanAdvance s 2) :
      exec (.movAccCte imm8) s = .next (Done { s with acc := imm8, pc := s.pc + 2 }) :=
    exec_of_canAdvance (staged := { s with acc := imm8 }) rfl rfl h
  refine ⟨decode_default_f2 (f := .movAccCte) rfl, hexec, fun _ => faultsPastEnd_of_faultOf fun _ => rfl,
    fun s hs h => ?_, faultsAtOperandFetch_of_f2 rfl⟩
  rw [step_of_atForm_f2 hs rfl (canAdvance_one_of_two h)]
  exact hexec _ s h

/-- Settles O5, from the one write MOV ACC,[DPTR] stages beside `pc`; the read itself has no side effect. -/
theorem movAccAtDptrLoadsTheAddressedCell : Obligations.MovAccAtDptrLoadsTheAddressedCell :=
  ⟨decode_default_f1 (f := .movAccAtDptr) rfl,
    fun s => exec_of_canAdvance (staged := { s with acc := s.mem.read s.dptr }) rfl rfl,
    faultsPastEnd_of_faultOf fun _ => rfl⟩

/-- Settles O6. That DPTR has no other writer is `exec_dptr`, by cases over the writes of every instruction. -/
theorem movDptrAccAloneWritesDptr : Obligations.MovDptrAccAloneWritesDptr :=
  ⟨decode_default_f1 (f := .movDptrAcc) rfl, fun s => exec_of_canAdvance (staged := { s with dptr := s.acc }) rfl rfl,
    faultsPastEnd_of_faultOf fun _ => rfl, changesNoFlag_of_writesOf_acc (fun _ => rfl) nofun,
    fun _ _ _ => exec_dptr⟩

/-- Settles O7. The memory left is the write of ACC at DPTR, and in canonical form a write changes the read at its own address
alone. -/
theorem movAtDptrAccStoresOneCell : Obligations.MovAtDptrAccStoresOneCell := by
  refine ⟨decode_default_f1 (f := .movAtDptrAcc) rfl, fun s hwf h => ?_, faultsPastEnd_of_faultOf fun _ => rfl,
    changesNoFlag_of_writesOf_acc (fun _ => rfl) nofun⟩
  refine ⟨s.mem.write s.dptr s.acc,
    exec_of_canAdvance (staged := { s with mem := s.mem.write s.dptr s.acc }) rfl rfl h, fun q hq => ?_⟩
  obtain rfl : s.dptr = q := Option.some.inj hq
  refine ⟨rfl, ?_, fun addr hne => ?_⟩
  · rw [Memory.read_write hwf, if_pos rfl]
  · rw [Memory.read_write hwf, if_neg hne]

end Sys2Proof.Proofs
end

section
/-! SUPPORT. The operations of the ALU in the words of the statements, and the sign that a meaning which runs leaves in N. -/

namespace Sys2Proof.Machine

/-! ### The ALU's operations on bytes -/

/-- The complement is the distance to 255 (R140). -/
theorem not8_eq_bits8_sub (v : Byte) : not8 v = bits8 (255 - uint v) := by
  apply BitVec.eq_of_toNat_eq
  have hdiff : 255 - uint v < 2 ^ 8 := Nat.lt_succ_of_le (Nat.sub_le 255 (uint v))
  rw [not8, BitVec.toNat_not, BitVec.toNat_ofNat, Nat.mod_eq_of_lt hdiff]

theorem add8_eq_add (a b : Byte) : add8 a b = a + b := (BitVec.add_def a b).symm

/-- Doubling modulo 256 drops bit 7 (R146). -/
theorem shl8_eq_shiftLeft (v : Byte) : shl8 v = v <<< 1 := by
  apply BitVec.eq_of_toNat_eq
  rw [shl8, BitVec.toNat_ofNat, BitVec.toNat_shiftLeft, Nat.shiftLeft_eq, pow_one, Nat.mul_comm]

/-- Halving the unsigned reading is the logical shift (R147). -/
theorem shr8_eq_ushiftRight (v : Byte) : shr8 v = v >>> 1 := by
  apply BitVec.eq_of_toNat_eq
  have hhalf : uint v / 2 < 2 ^ 8 := Nat.lt_of_le_of_lt (Nat.div_le_self _ 2) v.isLt
  rw [shr8, BitVec.toNat_ofNat, Nat.mod_eq_of_lt hhalf, BitVec.toNat_ushiftRight, Nat.shiftRight_eq_div_pow, pow_one]

/-- The sign bit that `addOverflow` compares is the most significant bit of the word (R9, R143). -/
theorem addOverflow_eq_msb (a b r : Byte) : addOverflow a b r = ((a.msb == b.msb) && (r.msb != a.msb)) := by
  simp only [addOverflow, BitVec.msb_eq_getLsbD_last]

/-! ### The sign of a result -/

/-- The bit shifted into the sign's place is bit 6. -/
theorem signTest_shl8 (v : Byte) : signTest (shl8 v) = v.getLsbD 6 := by
  rw [signTest, shl8_eq_shiftLeft, BitVec.getLsbD_shiftLeft]
  rfl

/-- No bit lies above bit 7 to be shifted into its place. -/
theorem signTest_shr8 (v : Byte) : signTest (shr8 v) = false := by
  rw [signTest, shr8_eq_ushiftRight, BitVec.getLsbD_ushiftRight]
  exact v.getLsbD_of_ge 8 (Nat.le_refl 8)

/-- An instruction that runs leaves in N the sign of the ACC it wrote (R104). -/
theorem exec_n_of_running {i : Instr} {s t : State} (h : exec i s = .next t) (hr : t.status = .running) :
    t.n = signTest (writesOf i s).acc := by
  rcases exec_next_cases h with ⟨kind, -, rfl⟩ | ⟨-, rfl⟩
  · cases hr
  · rfl

/-! ### The writes of the ALU instructions -/

theorem writesOf_addAccA (s : State) : writesOf .addAccA s =
    { s with acc := s.acc + s.a, ovf := (s.acc.msb == s.a.msb) && ((s.acc + s.a).msb != s.acc.msb), pc := nextPc s 1 } := by
  rw [← add8_eq_add, ← addOverflow_eq_msb]
  rfl

theorem writesOf_shlAcc (s : State) : writesOf .shlAcc s = { s with acc := s.acc <<< 1, pc := nextPc s 1 } := by
  rw [← shl8_eq_shiftLeft]
  rfl

theorem writesOf_shrAcc (s : State) : writesOf .shrAcc s = { s with acc := s.acc >>> 1, pc := nextPc s 1 } := by
  rw [← shr8_eq_ushiftRight]
  rfl

end Sys2Proof.Machine
end

section
/-! The statements of spec/42_alu.md. -/

namespace Sys2Proof.Proofs

open Sys2Proof.Machine Sys2Proof.Statement

/-- Settles O9, from the one write INV stages beside `pc`; complementing a byte subtracts it from 255. -/
theorem invAccInvertsEveryBit : Obligations.InvAccInvertsEveryBit :=
  ⟨decode_default_f1 (f := .invAcc) rfl, fun s => exec_of_canAdvance (staged := { s with acc := ~~~s.acc }) rfl rfl,
    faultsPastEnd_of_faultOf fun _ => rfl, fun v => ⟨rfl, not8_eq_bits8_sub v⟩⟩

/-- Settles O10, from the one write AND stages beside `pc`. -/
theorem andAccAIsBitwise : Obligations.AndAccAIsBitwise :=
  ⟨decode_default_f1 (f := .andAccA) rfl, fun s => exec_of_canAdvance (staged := { s with acc := s.acc &&& s.a }) rfl rfl,
    faultsPastEnd_of_faultOf fun _ => rfl⟩

/-- Settles O11. ADD stages the sum and OVF together (`writesOf_addAccA`), so a fault past the end discards both. -/
theorem addAccAWritesSumAndOverflow : Obligations.AddAccAWritesSumAndOverflow :=
  ⟨decode_default_f1 (f := .addAccA) rfl,
    fun s => exec_of_canAdvance (staged := { s with
      acc := s.acc + s.a, ovf := (s.acc.msb == s.a.msb) && ((s.acc + s.a).msb != s.acc.msb) }) rfl (writesOf_addAccA s),
    faultsPastEnd_of_faultOf fun _ => rfl⟩

/-- Settles O16. N is the sign of the doubled byte, whose bit 7 is the old bit 6. -/
theorem shlAccDoublesModulo256 : Obligations.ShlAccDoublesModulo256 :=
  ⟨decode_default_f1 (f := .shlAcc) rfl,
    fun s => exec_of_canAdvance (staged := { s with acc := s.acc <<< 1 }) rfl (writesOf_shlAcc s),
    fun s _ h hr => (exec_n_of_running h hr).trans (signTest_shl8 s.acc), faultsPastEnd_of_faultOf fun _ => rfl⟩

/-- Settles O17. N is the sign of the halved byte, whose bit 7 is clear. -/
theorem shrAccIsLogicalAndNeverNegative : Obligations.ShrAccIsLogicalAndNeverNegative :=
  ⟨decode_default_f1 (f := .shrAcc) rfl,
    fun s => exec_of_canAdvance (staged := { s with acc := s.acc >>> 1 }) rfl (writesOf_shrAcc s),
    fun s _ h hr => (exec_n_of_running h hr).trans (signTest_shr8 s.acc), faultsPastEnd_of_faultOf fun _ => rfl⟩

end Sys2Proof.Proofs
end

section
/-! SUPPORT. The conditional jumps as one rule, CALL and RET by the state of the call stack, and the step at an F1 form. -/

namespace Sys2Proof.Machine

open Sys2Proof.Safety Sys2Proof.Statement

/-! ### Jumps (R160 to R164) -/

/-- An instruction that stages a jump where its flag is set, and an advance by 2 where it is not, is a conditional jump. -/
theorem jumpsIf_of_writesOf {jump : Byte → Instr} {flag : State → Bool}
    (hf : ∀ imm8 s, faultOf (jump imm8) s = if flag s then none else pastEndFault s 2)
    (hw : ∀ imm8 s, writesOf (jump imm8) s = { s with pc := if flag s then imm8 else nextPc s 2 }) :
    JumpsIf jump flag := by
  intro imm8 s
  specialize hf imm8 s
  specialize hw imm8 s
  cases hflag : flag s <;> rw [hflag] at hf hw
  case true => exact ⟨fun _ => hw ▸ exec_of_faultOf_none hf, nofun, nofun⟩
  case false =>
    exact ⟨nofun, fun _ hc => exec_of_canAdvance (staged := s) hf hw hc,
      fun _ hc => exec_of_faultOf_some (hf.trans (pastEndFault_of_cannotAdvance hc))⟩

theorem jz_jumpsIf : JumpsIf .jz (·.z) := jumpsIf_of_writesOf (fun _ _ => rfl) fun _ _ => rfl

theorem jn_jumpsIf : JumpsIf .jn (·.n) := jumpsIf_of_writesOf (fun _ _ => rfl) fun _ _ => rfl

theorem jc_jumpsIf : JumpsIf .jc (·.ovf) := jumpsIf_of_writesOf (fun _ _ => rfl) fun _ _ => rfl

theorem exec_jmp (imm8 : Byte) (s : State) : exec (.jmp imm8) s = .next (Done { s with pc := imm8 }) :=
  exec_of_faultOf_none (i := .jmp imm8) rfl

/-! ### The flags a jump tests -/

theorem z_of_acc_eq_zero {s : State} (hs : FlagInv s) (hacc : s.acc = 0x00) : s.z = true := by
  obtain ⟨hz, -⟩ := hs
  rw [hz, zeroTest_eq_decide]
  exact decide_eq_true hacc

theorem n_of_acc_neg {s : State} (hs : FlagInv s) (hacc : sint s.acc < 0) : s.n = true := by
  obtain ⟨-, hn⟩ := hs
  rw [hn, signTest_eq_decide]
  exact decide_eq_true hacc

/-- LoadProgram writes memory and `progSize` alone (R202). -/
theorem loadProgram_ovf {image : List Byte} {s t : State} (h : loadProgram image s = .ok t) : t.ovf = s.ovf := by
  rcases loadProgram_cases image s with ⟨n, -, hl⟩ | ⟨-, hl⟩ <;> rw [hl] at h <;> cases h
  rfl

/-! ### The call stack (R165, R166) -/

theorem exec_call_of_room {imm8 : Byte} {s : State} (hc : CanAdvance s 2)
    (hroom : s.config.stackDepth ≠ .bounded s.stack.length) :
    exec (.call imm8) s = .next (Done { s with stack := (s.pc + 2) :: s.stack, pc := imm8 }) := by
  have hret : s.pc + 2 = nextPc s 2 := (nextPc_eq_add s 2).symm
  have hf : faultOf (.call imm8) s = none := by
    rw [faultOf_call, if_neg ((canAdvance_iff s 2).1 hc), if_neg hroom]
  rw [hret]
  exact exec_of_faultOf_none hf

theorem exec_call_of_full {imm8 : Byte} {s : State} (hc : CanAdvance s 2)
    (hfull : s.config.stackDepth = .bounded s.stack.length) :
    exec (.call imm8) s = .next (Faulted .stackOverflow s) := by
  apply exec_of_faultOf_some
  rw [faultOf_call, if_neg ((canAdvance_iff s 2).1 hc), if_pos hfull]

/-- The return address is checked before the stack's depth (R165, R186). -/
theorem call_faultsPastEnd (imm8 : Byte) : FaultsPastEnd (.call imm8) 2 := by
  intro s hc
  apply exec_of_faultOf_some
  rw [faultOf_call, if_pos hc]

theorem exec_ret_of_cons {s : State} {top : Byte} {rest : List Byte} (h : s.stack = top :: rest) :
    exec .ret s = .next (Done { s with pc := top, stack := rest }) := by
  have hf : faultOf .ret s = none := by rw [faultOf_ret, h, if_neg (List.cons_ne_nil top rest)]
  rw [exec_of_faultOf_none hf, writesOf_ret, h]
  rfl

theorem exec_ret_of_nil {s : State} (h : s.stack = []) : exec .ret s = .next (Faulted .stackUnderflow s) := by
  apply exec_of_faultOf_some
  rw [faultOf_ret, if_pos h]

/-! ### The step at an F1 form -/

/-- At an F1 form the step runs its instruction, whether or not `pc + 1` has an address. -/
theorem step_of_atForm_f1 {s : State} {f : Form} {i : Instr} (h : AtForm s f) (hi : f.format = .f1 i) :
    step s = exec i s := by
  obtain ⟨hinj, hop⟩ := h
  have hfetch : fetch s = .ok i := decodeWith_f1 (hop ▸ hinj.formOf_code f) hi (fetchOperand s)
  rw [step, hfetch]

end Sys2Proof.Machine
end

section
/-! The statements of spec/43_control.md. -/

namespace Sys2Proof.Proofs

open Sys2Proof.Machine Sys2Proof.Statement

/-- Settles O21. The jump is the rule of the three conditional jumps, and the history of OVF is that of O36, with the signs of
ADD read as most significant bits. -/
theorem jcTestsOverflow : Obligations.JcTestsOverflow := by
  obtain ⟨hother, hfault, hrun, -, -⟩ := overflowFlagWriterAndReader
  refine ⟨decode_default_f2 (f := .jc) rfl, jc_jumpsIf, faultsAtOperandFetch_of_f2 rfl,
    fun _ => changesNoFlag_of_writesOf_acc (fun _ => rfl) nofun, fun s => created_ovf s.config, fun s t h hr => ?_,
    hfault, hother, fun _ _ _ => loadProgram_ovf⟩
  rw [hrun s t h hr, addOverflow_eq_msb, add8_eq_add]

/-- Settles O18. JMP raises no fault of its own, so only its operand fetch looks past `pc`. -/
theorem jmpGoesToItsOperand : Obligations.JmpGoesToItsOperand := by
  refine ⟨decode_default_f2 (f := .jmp) rfl, exec_jmp, fun s hs hc => ?_, faultsAtOperandFetch_of_f2 rfl,
    fun _ => changesNoFlag_of_writesOf_acc (fun _ => rfl) nofun⟩
  rw [step_of_atForm_f2 hs rfl hc]
  exact exec_jmp _ s

/-- Settles O19. Under the flag invariant an ACC of zero sets Z, so the jump is the taken case of the rule. -/
theorem jzTestsZero : Obligations.JzTestsZero := by
  refine ⟨decode_default_f2 (f := .jz) rfl, jz_jumpsIf, faultsAtOperandFetch_of_f2 rfl,
    fun _ => changesNoFlag_of_writesOf_acc (fun _ => rfl) nofun, fun imm8 s hs hacc => ?_⟩
  obtain ⟨htaken, -, -⟩ := jz_jumpsIf imm8 s
  exact htaken (z_of_acc_eq_zero hs hacc)

/-- Settles O20. A negative ACC sets N under the flag invariant; a SHR that runs clears it, since no bit is shifted into the
sign's place. -/
theorem jnTestsNegative : Obligations.JnTestsNegative := by
  refine ⟨decode_default_f2 (f := .jn) rfl, jn_jumpsIf, faultsAtOperandFetch_of_f2 rfl,
    fun _ => changesNoFlag_of_writesOf_acc (fun _ => rfl) nofun, fun imm8 s hs hacc => ?_, fun imm8 s t h hr hc => ?_⟩
  · obtain ⟨htaken, -, -⟩ := jn_jumpsIf imm8 s
    exact htaken (n_of_acc_neg hs hacc)
  · obtain ⟨-, hnot, -⟩ := jn_jumpsIf imm8 t
    have hn : t.n = false := (exec_n_of_running h hr).trans (signTest_shr8 s.acc)
    exact hnot hn hc

/-- Settles O22, by the order in which CALL checks the return address and then the stack's depth. -/
theorem callPushesReturnAddressAndJumps : Obligations.CallPushesReturnAddressAndJumps :=
  ⟨decode_default_f2 (f := .call) rfl, fun _ _ => exec_call_of_room, fun _ _ => exec_call_of_full,
    call_faultsPastEnd, faultsAtOperandFetch_of_f2 rfl, fun _ => changesNoFlag_of_writesOf_acc (fun _ => rfl) nofun⟩

/-- Settles O23, by cases on the call stack: RET makes no sequential advance. -/
theorem retPopsIntoPc : Obligations.RetPopsIntoPc :=
  ⟨decode_default_f1 (f := .ret) rfl, fun _ _ _ => exec_ret_of_cons, fun _ => exec_ret_of_nil,
    changesNoFlag_of_writesOf_acc (fun _ => rfl) nofun⟩

/-- Settles O25. The fault leaves `pc` and memory, and no step reads `status`, so the repeated step is the first one again. -/
theorem haltFaultsAndStays : Obligations.HaltFaultsAndStays := by
  refine ⟨decode_default_f1 (f := .halt) rfl, exec_halt, fun s hs => ?_⟩
  have hstep : step s = .next (Faulted .unknownInstruction s) := step_of_atForm_f1 hs rfl
  exact ⟨hstep, (step_withStatus s _).trans hstep⟩

end Sys2Proof.Proofs
end

section
/-! SUPPORT. The faults by the form at `pc` (R182 to R185): how far past `pc` a form looks, and the check of its own after that. -/

namespace Sys2Proof

/-- Under an injective map a byte selects exactly the form whose byte it is. -/
theorem OpcodeMap.Injective.formOf_eq_some_iff {m : OpcodeMap} (h : m.Injective) (op : Byte) (f : Form) :
    m.formOf op = some f ↔ op = m.code f :=
  ⟨fun hf => (OpcodeMap.code_of_formOf hf).symm, fun hop => hop ▸ h.formOf_code f⟩

end Sys2Proof

namespace Sys2Proof.Machine

open Sys2Proof.Statement

/-! ### The fault a form raises -/

/-- How many bytes past `pc` a form needs an address for: its operand, and the sequential next address where it uses it (R184). -/
def lookAhead : Form → State → Nat
  | .halt, _ | .ret, _ => 0
  | .movAccCte, _ | .call, _ => 2
  | .jz, s => if s.z then 1 else 2
  | .jn, s => if s.n then 1 else 2
  | .jc, s => if s.ovf then 1 else 2
  | .nop, _ | .movAccA, _ | .movAAcc, _ | .movAccAtDptr, _ | .movDptrAcc, _ | .movAtDptrAcc, _
  | .invAcc, _ | .andAccA, _ | .addAccA, _ | .jmp, _ | .shlAcc, _ | .shrAcc, _ => 1

/-- The fault a form raises where every address it needs exists (R182, R183, R185). -/
def ownFault : Form → State → Option Fault
  | .halt, _ => some .unknownInstruction
  | .ret, s => if s.stack = [] then some .stackUnderflow else none
  | .call, s => if s.config.stackDepth = .bounded s.stack.length then some .stackOverflow else none
  | .nop, _ | .movAccA, _ | .movAAcc, _ | .movAccCte, _ | .movAccAtDptr, _ | .movDptrAcc, _ | .movAtDptrAcc, _
  | .invAcc, _ | .andAccA, _ | .addAccA, _ | .jmp, _ | .jz, _ | .jn, _ | .jc, _ | .shlAcc, _ | .shrAcc, _ => none

/-- The first fault at a form in the order of R186: its addresses, then the check of its own. -/
def formFault (f : Form) (s : State) : Option Fault :=
  if CannotAdvance s (lookAhead f s) then some .pcOutOfRange else ownFault f s

theorem not_cannotAdvance_zero (s : State) : ¬ CannotAdvance s 0 := fun h => Nat.not_lt.2 (Nat.le_of_lt_succ s.pc.isLt) h.1

/-- The two checks of a conditional jump, its operand and then the next address, are one check of the farther address. -/
theorem jumpFault_eq_pastEndFault (s : State) (taken : Bool) :
    (if CannotAdvance s 1 then some Fault.pcOutOfRange else if taken then none else pastEndFault s 2) =
      pastEndFault s (if taken then 1 else 2) := by
  cases taken with
  | true => rfl
  | false =>
    by_cases h : CannotAdvance s 1
    · exact (if_pos h).trans (pastEndFault_of_cannotAdvance (cannotAdvance_two_of_one h)).symm
    · exact if_neg h

theorem firstFault_of_formOf {s : State} {f : Form} (hf : s.config.opcodeMap.formOf (s.mem.read s.pc) = some f) :
    firstFault s = formFault f s := by
  unfold firstFault
  rw [hf]
  cases f with
  | halt | ret => exact (if_neg (not_cannotAdvance_zero s)).symm
  | jz => exact jumpFault_eq_pastEndFault s s.z
  | jn => exact jumpFault_eq_pastEndFault s s.n
  | jc => exact jumpFault_eq_pastEndFault s s.ovf
  | _ => rfl

/-- Under an injective map a fault comes from a byte that selects no form, or from the form at `pc`. -/
theorem firstFault_eq_some_iff {s : State} (hinj : s.config.opcodeMap.Injective) (kind : Fault) :
    firstFault s = some kind ↔
      (s.config.opcodeMap.SelectsNone (s.mem.read s.pc) ∧ kind = .unknownInstruction) ∨
      ∃ f, s.mem.read s.pc = s.config.opcodeMap.code f ∧ formFault f s = some kind := by
  simp only [← hinj.formOf_eq_some_iff, ← OpcodeMap.formOf_none_iff]
  cases hf : s.config.opcodeMap.formOf (s.mem.read s.pc) with
  | none => simp [firstFault_reserved hf, eq_comm]
  | some f => simp [firstFault_of_formOf hf]

/-! ### Which form raises which fault -/

theorem formFault_eq_pcOutOfRange_iff (f : Form) (s : State) :
    formFault f s = some .pcOutOfRange ↔ CannotAdvance s (lookAhead f s) := by
  have hown : ownFault f s ≠ some .pcOutOfRange := by cases f <;> simp [ownFault]
  simp [formFault, hown]

/-- Any other fault is the form's own, raised once every address it needs exists. -/
theorem formFault_eq_some_iff {kind : Fault} (hk : kind ≠ .pcOutOfRange) (f : Form) (s : State) :
    formFault f s = some kind ↔ CanAdvance s (lookAhead f s) ∧ ownFault f s = some kind := by
  rw [canAdvance_iff, formFault]
  by_cases h : CannotAdvance s (lookAhead f s)
  · rw [if_pos h]
    exact ⟨fun e => absurd (Option.some.inj e).symm hk, fun ⟨hn, _⟩ => absurd h hn⟩
  · simp [h]

theorem formFault_eq_unknownInstruction_iff (f : Form) (s : State) :
    formFault f s = some .unknownInstruction ↔ f = .halt := by
  rw [formFault_eq_some_iff (kind := .unknownInstruction) nofun, canAdvance_iff]
  cases f with
  | halt => simp [lookAhead, ownFault, not_cannotAdvance_zero s]
  | _ => simp [ownFault]

theorem formFault_eq_stackUnderflow_iff (f : Form) (s : State) :
    formFault f s = some .stackUnderflow ↔ f = .ret ∧ s.stack = [] := by
  rw [formFault_eq_some_iff (kind := .stackUnderflow) nofun, canAdvance_iff]
  cases f with
  | ret => simp [lookAhead, ownFault, not_cannotAdvance_zero s]
  | _ => simp [ownFault]

theorem formFault_eq_stackOverflow_iff (f : Form) (s : State) :
    formFault f s = some .stackOverflow ↔
      f = .call ∧ CanAdvance s 2 ∧ s.config.stackDepth = .bounded s.stack.length := by
  rw [formFault_eq_some_iff (kind := .stackOverflow) nofun]
  cases f with
  | call => simp [lookAhead, ownFault]
  | _ => simp [ownFault]

/-! ### The four cases of R184 -/

theorem uint_ge_255_iff (p : Byte) : 255 ≤ uint p ↔ p = 0xFF := by
  rw [uint]
  bv_omega

theorem uint_add_two_gt_255_iff (p : Byte) : 255 < uint p + 2 ↔ p = 0xFF ∨ p = 0xFE := by
  rw [uint]
  bv_omega

/-- The four cases are those where the farthest address the form needs is above 255. -/
theorem pastEndCase_iff (s : State) (f : Form) : PastEndCase s f ↔ 255 < uint s.pc + lookAhead f s := by
  have hpc : uint s.pc ≤ 255 := Nat.le_of_lt_succ s.pc.isLt
  cases f with
  | halt | ret => simp [PastEndCase, Form.format, lookAhead, hpc]
  | movAccCte | call => simp [PastEndCase, Form.format, lookAhead, uint_add_two_gt_255_iff]
  | jz => cases hz : s.z <;> simp [PastEndCase, Form.format, lookAhead, hz, uint_ge_255_iff, uint_add_two_gt_255_iff]
  | jn => cases hn : s.n <;> simp [PastEndCase, Form.format, lookAhead, hn, uint_ge_255_iff, uint_add_two_gt_255_iff]
  | jc => cases ho : s.ovf <;> simp [PastEndCase, Form.format, lookAhead, ho, uint_ge_255_iff, uint_add_two_gt_255_iff]
  | _ => simp [PastEndCase, Form.format, lookAhead, uint_ge_255_iff]

/-! ### The state a fault leaves (R180) -/

theorem eq_faulted_of_step {s t : State} {kind : Fault} (h : step s = .next t) (hs : t.status = .faulted kind) :
    t = Faulted kind s := by
  rcases step_next_cases h with ⟨k, -, rfl⟩ | ⟨i, -, -, rfl⟩
  · cases hs; rfl
  · cases hs

/-- The fault a step reports, by the byte at `pc`. -/
theorem step_status_faulted_iff_of_injective {s t : State} (hinj : s.config.opcodeMap.Injective) (h : step s = .next t)
    (kind : Fault) : t.status = .faulted kind ↔
      (s.config.opcodeMap.SelectsNone (s.mem.read s.pc) ∧ kind = .unknownInstruction) ∨
      ∃ f, s.mem.read s.pc = s.config.opcodeMap.code f ∧ formFault f s = some kind :=
  (step_status_faulted_iff h kind).trans (firstFault_eq_some_iff hinj kind)

end Sys2Proof.Machine
end

section
/-! The statements of spec/60_exceptions.md. -/

namespace Sys2Proof.Proofs

open Sys2Proof.Machine Sys2Proof.Statement

/-- Settles O32. A step always answers, and its answer is the faulting state or a commit, which sets `Running`. -/
theorem everyStepRunsOrFaultsPrecisely : Obligations.EveryStepRunsOrFaultsPrecisely := by
  intro s
  obtain ⟨t, ht⟩ := step_next s
  refine ⟨t, ht, ?_⟩
  rcases step_next_cases ht with ⟨kind, -, rfl⟩ | ⟨i, -, -, rfl⟩
  · exact .inr ⟨kind, rfl⟩
  · exact .inl rfl

/-- Settles O43, by the two answers of a step: the first fault taken, or, where there is none, the writes committed. -/
theorem stepReportsTheFirstFault : Obligations.StepReportsTheFirstFault := by
  intro s t h
  rcases step_next_cases h with ⟨kind, hk, rfl⟩ | ⟨i, -, hn, rfl⟩
  · rw [hk]
  · rw [hn]; rfl

/-- Settles O39. HALT is the one form that raises the fault, and it needs no address past `pc`. -/
theorem unknownInstructionExactly : Obligations.UnknownInstructionExactly := by
  intro s t hinj h
  refine ⟨?_, eq_faulted_of_step h⟩
  rw [step_status_faulted_iff_of_injective hinj h]
  simp [formFault_eq_unknownInstruction_iff]

/-- Settles O40. RET is the one form that pops, and it needs no address past `pc`. -/
theorem stackUnderflowExactly : Obligations.StackUnderflowExactly := by
  intro s t hinj h
  refine ⟨?_, fun hs => by rw [eq_faulted_of_step h hs]⟩
  rw [step_status_faulted_iff_of_injective hinj h]
  simp [formFault_eq_stackUnderflow_iff]

/-- Settles O41. A form faults where the farthest address it needs is out of range, which happens in R184's four cases. -/
theorem pcOutOfRangeExactly : Obligations.PcOutOfRangeExactly := by
  intro s t hinj h
  rw [step_status_faulted_iff_of_injective hinj h]
  simp only [formFault_eq_pcOutOfRange_iff, pastEndCase_iff, reduceCtorEq, and_false, false_or]
  exact ⟨fun ⟨f, hf, hpast, hc⟩ => ⟨hc, f, hf, hpast⟩, fun ⟨hc, f, hf, hpast⟩ => ⟨f, hf, hpast, hc⟩⟩

/-- Settles O42. CALL is the one form that pushes, and it looks at the stack only where its return address has a place. -/
theorem stackOverflowExactly : Obligations.StackOverflowExactly := by
  intro s t hinj h
  rw [step_status_faulted_iff_of_injective hinj h]
  simp [formFault_eq_stackOverflow_iff]

end Sys2Proof.Proofs
end

section
/-! SUPPORT. What a read gives after an image is written, and LoadProgram by the length of its image. -/

namespace Sys2Proof.Machine

open Sys2Proof.Safety

/-! ### Reading memory after an image is written -/

/-- An address below the place where the image starts is left alone, since no byte of an image that fits wraps round to it. -/
theorem Memory.read_writeFrom_of_lt {addr : Byte} : ∀ (image : List Byte) {k : Nat} {m : Memory},
    m.wf = true → k + image.length ≤ 256 → uint addr < k → (m.writeFrom k image).read addr = m.read addr
  | [], _, _, _, _, _ => rfl
  | b :: rest, k, m, hwf, hfit, hlt => by
    rw [List.length_cons] at hfit
    have hne : addr ≠ bits8 k := by
      rintro rfl
      rw [uint_bits8_of_le (by omega)] at hlt
      exact Nat.lt_irrefl k hlt
    calc ((m.write (bits8 k) b).writeFrom (k + 1) rest).read addr
        = (m.write (bits8 k) b).read addr :=
          read_writeFrom_of_lt rest (write_wf hwf _ _) (by omega) (Nat.lt_succ_of_lt hlt)
      _ = m.read addr := by rw [read_write hwf, if_neg hne]

/-- From the place where the image starts on, an address reads its byte of the image, and as before past the image's end. -/
theorem Memory.read_writeFrom_of_ge {addr : Byte} : ∀ (image : List Byte) {k : Nat} {m : Memory},
    m.wf = true → k + image.length ≤ 256 → k ≤ uint addr →
    (m.writeFrom k image).read addr = (image[uint addr - k]?).getD (m.read addr)
  | [], _, _, _, _, _ => rfl
  | b :: rest, k, m, hwf, hfit, hge => by
    rw [List.length_cons] at hfit
    have hwf' : (m.write (bits8 k) b).wf = true := write_wf hwf _ _
    have hfit' : k + 1 + rest.length ≤ 256 := by omega
    have huint : uint (bits8 k) = k := uint_bits8_of_le (by omega)
    rw [writeFrom]
    rcases Nat.eq_or_lt_of_le hge with heq | hlt
    · have haddr : addr = bits8 k := BitVec.eq_of_toNat_eq (heq.symm.trans huint.symm)
      rw [read_writeFrom_of_lt rest hwf' hfit' (heq ▸ Nat.lt_succ_self k), read_write hwf, if_pos haddr, ← heq, Nat.sub_self]
      rfl
    · have hne : addr ≠ bits8 k := by
        rintro rfl
        exact absurd huint hlt.ne'
      have hidx : uint addr - k = uint addr - (k + 1) + 1 := by omega
      rw [read_writeFrom_of_ge rest hwf' hfit' hlt, read_write hwf, if_neg hne, hidx, List.getElem?_cons_succ]

/-! ### LoadProgram by the length of its image (R202) -/

theorem loadProgram_of_tooLong {image : List Byte} {s : State} (h : 256 < image.length) :
    loadProgram image s = .error .imageTooLong := by
  rcases loadProgram_cases image s with ⟨n, hn, -⟩ | ⟨-, hl⟩
  · have := n.isLt
    omega
  · exact hl

theorem loadProgram_of_fits {image : List Byte} {s : State} (h : image.length ≤ 256) :
    ∃ n : Fin 257, n.val = image.length ∧
      loadProgram image s = .ok { s with mem := s.mem.writeFrom 0 image, progSize := n } := by
  rcases loadProgram_cases image s with hfits | ⟨hlong, -⟩
  · exact hfits
  · exact absurd h (Nat.not_le_of_lt hlong)

/-- A load that fails is no write of the host's. -/
theorem applyHostOp_load_of_error {image : List Byte} {s : State} {e : LoadError} (h : loadProgram image s = .error e) :
    applyHostOp (.load image) s = s := by
  rw [applyHostOp, h]

end Sys2Proof.Machine
end

section
/-! The statements of spec/70_reset_and_hazards.md. -/

namespace Sys2Proof.Proofs

open Sys2Proof.Machine

/-- Settles O52. An image that fits is written from address 0 on without wrapping, so each of its bytes is read where it was
copied. -/
theorem loadProgramCopiesTheImage : Obligations.LoadProgramCopiesTheImage := by
  refine ⟨fun image s hlong => ?_, fun image s hwf hfits => ?_⟩
  · have herr : loadProgram image s = .error .imageTooLong := loadProgram_of_tooLong hlong
    exact ⟨herr, applyHostOp_load_of_error herr⟩
  · obtain ⟨n, hn, hload⟩ := loadProgram_of_fits (s := s) hfits
    refine ⟨s.mem.writeFrom 0 image, n, hload, hn, fun addr => ?_⟩
    exact Memory.read_writeFrom_of_ge image hwf (by omega) (Nat.zero_le _)

/-- Settles O51. Reset is the state a machine is created in, and its memory is the empty one. -/
theorem resetSetsEveryField : Obligations.ResetSetsEveryField := fun s =>
  ⟨created_pc s.config, created_acc s.config, created_a s.config, created_dptr s.config, created_z s.config,
    created_n s.config, created_ovf s.config, Memory.read_empty, created_stack s.config, created_progSize s.config,
    created_status s.config⟩

end Sys2Proof.Proofs
end

section
/-! SUPPORT. The encoder by the form it writes, everything the decoder can answer, and the step on the bytes at `pc`. -/

namespace Sys2Proof

/-! ### The encoding by form -/

/-- Every instruction is made by the format of a form, with an operand where the form is F2, or is a reserved byte. -/
theorem Instr.format_cases (i : Instr) :
    (∃ f : Form, f.format = .f1 i) ∨ (∃ (f : Form) (mk : Byte → Instr) (imm8 : Byte), f.format = .f2 mk ∧ i = mk imm8) ∨
      ∃ op, i = .reserved op := by
  cases i with
  | nop => exact .inl ⟨.nop, rfl⟩
  | movAccA => exact .inl ⟨.movAccA, rfl⟩
  | movAAcc => exact .inl ⟨.movAAcc, rfl⟩
  | movAccCte imm8 => exact .inr (.inl ⟨.movAccCte, _, imm8, rfl, rfl⟩)
  | movAccAtDptr => exact .inl ⟨.movAccAtDptr, rfl⟩
  | movDptrAcc => exact .inl ⟨.movDptrAcc, rfl⟩
  | movAtDptrAcc => exact .inl ⟨.movAtDptrAcc, rfl⟩
  | invAcc => exact .inl ⟨.invAcc, rfl⟩
  | andAccA => exact .inl ⟨.andAccA, rfl⟩
  | addAccA => exact .inl ⟨.addAccA, rfl⟩
  | jmp imm8 => exact .inr (.inl ⟨.jmp, _, imm8, rfl, rfl⟩)
  | jz imm8 => exact .inr (.inl ⟨.jz, _, imm8, rfl, rfl⟩)
  | jn imm8 => exact .inr (.inl ⟨.jn, _, imm8, rfl, rfl⟩)
  | jc imm8 => exact .inr (.inl ⟨.jc, _, imm8, rfl, rfl⟩)
  | call imm8 => exact .inr (.inl ⟨.call, _, imm8, rfl, rfl⟩)
  | ret => exact .inl ⟨.ret, rfl⟩
  | shlAcc => exact .inl ⟨.shlAcc, rfl⟩
  | shrAcc => exact .inl ⟨.shrAcc, rfl⟩
  | halt => exact .inl ⟨.halt, rfl⟩
  | reserved op => exact .inr (.inr ⟨op, rfl⟩)

theorem encode_f1 {f : Form} {i : Instr} (hi : f.format = .f1 i) (m : OpcodeMap) : encode m i = [m.code f] := by
  cases f <;> cases hi <;> rfl

theorem encode_f2 {f : Form} {mk : Byte → Instr} (hmk : f.format = .f2 mk) (m : OpcodeMap) (imm8 : Byte) :
    encode m (mk imm8) = [m.code f, imm8] := by
  cases f <;> cases hmk <;> rfl

/-- Only a reserved byte has a condition to be well-formed. -/
theorem wellFormed_f1 {f : Form} {i : Instr} (hi : f.format = .f1 i) (m : OpcodeMap) : i.WellFormed m := by
  cases f <;> cases hi <;> trivial

theorem wellFormed_f2 {f : Form} {mk : Byte → Instr} (hmk : f.format = .f2 mk) (m : OpcodeMap) (imm8 : Byte) :
    (mk imm8).WellFormed m := by
  cases f <;> cases hmk <;> trivial

/-! ### What the decoder answers -/

theorem decode_reserved {m : OpcodeMap} {op : Byte} (h : m.SelectsNone op) (rest : List Byte) :
    decode m (op :: rest) = .ok (.reserved op, rest) := by
  have hf : m.formOf op = none := (m.formOf_none_iff op).2 h
  have hlen : m.lengthAt op = 1 := by rw [OpcodeMap.lengthAt, hf]
  simp only [decode, decodeWith_reserved hf, hlen]
  rfl

theorem decode_f2_noOperand {m : OpcodeMap} {op : Byte} {f : Form} {mk : Byte → Instr} (hf : m.formOf op = some f)
    (hmk : f.format = .f2 mk) : decode m [op] = .error .noOperand := by
  simp only [decode, decodeWith_f2 hf hmk, Except.map]

/-- Everything the decoder answers with success: a reserved byte alone, an F1 form's byte alone, or an F2 form's byte with its
operand. -/
theorem decode_ok_cases {m : OpcodeMap} {bs rest : List Byte} {i : Instr} (h : decode m bs = .ok (i, rest)) :
    (∃ op, m.SelectsNone op ∧ i = .reserved op ∧ bs = op :: rest) ∨
    (∃ op f, m.formOf op = some f ∧ f.format = .f1 i ∧ bs = op :: rest) ∨
    (∃ op f mk imm8, m.formOf op = some f ∧ f.format = .f2 mk ∧ i = mk imm8 ∧ bs = op :: imm8 :: rest) := by
  cases bs with
  | nil => cases h
  | cons op tail =>
    cases hf : m.formOf op with
    | none =>
      have hnone : m.SelectsNone op := (m.formOf_none_iff op).1 hf
      rw [decode_reserved hnone] at h
      cases h
      exact .inl ⟨op, hnone, rfl, rfl⟩
    | some f =>
      cases hi : f.format with
      | f1 j =>
        rw [decode_f1 hf hi] at h
        cases h
        exact .inr (.inl ⟨op, f, hf, hi, rfl⟩)
      | f2 mk =>
        cases tail with
        | nil => rw [decode_f2_noOperand hf hi] at h; cases h
        | cons imm8 tail =>
          rw [decode_f2 hf hi] at h
          cases h
          exact .inr (.inr ⟨op, f, mk, imm8, hf, hi, rfl, rfl⟩)

theorem decode_encode {m : OpcodeMap} (hinj : m.Injective) {i : Instr} (hi : i.WellFormed m) (rest : List Byte) :
    decode m (encode m i ++ rest) = .ok (i, rest) := by
  rcases i.format_cases with ⟨f, hf⟩ | ⟨f, mk, imm8, hmk, rfl⟩ | ⟨op, rfl⟩
  · rw [encode_f1 hf]
    exact decode_f1 (hinj.formOf_code f) hf rest
  · rw [encode_f2 hmk]
    exact decode_f2 (hinj.formOf_code f) hmk imm8 rest
  · exact decode_reserved hi rest

theorem wellFormed_and_encode_of_decode {m : OpcodeMap} {bs rest : List Byte} {i : Instr}
    (h : decode m bs = .ok (i, rest)) : i.WellFormed m ∧ encode m i ++ rest = bs := by
  rcases decode_ok_cases h with ⟨op, hnone, rfl, rfl⟩ | ⟨op, f, hf, hi, rfl⟩ | ⟨op, f, mk, imm8, hf, hmk, rfl, rfl⟩
  · exact ⟨hnone, rfl⟩
  · rw [encode_f1 hi, OpcodeMap.code_of_formOf hf]
    exact ⟨wellFormed_f1 hi m, rfl⟩
  · rw [encode_f2 hmk, OpcodeMap.code_of_formOf hf]
    exact ⟨wellFormed_f2 hmk m imm8, rfl⟩

/-- An instruction of 1 byte decodes alike whatever byte follows it. -/
theorem decode_of_decode_of_length_one {m : OpcodeMap} (hinj : m.Injective) {b b' c : Byte} {i : Instr} {rest : List Byte}
    (h : decode m [b, c] = .ok (i, rest)) (hlen : (encode m i).length = 1) : decode m [b, b'] = .ok (i, [b']) := by
  obtain ⟨hwf, hbytes⟩ := wellFormed_and_encode_of_decode h
  obtain ⟨op, hop⟩ := List.length_eq_one_iff.1 hlen
  rw [hop] at hbytes
  cases hbytes
  have henc : [b, b'] = encode m i ++ [b'] := by rw [hop]; rfl
  rw [henc]
  exact decode_encode hinj hwf [b']

theorem decode_of_decodeTableWord {nbits w : Nat} {i : Instr} (h : decodeTableWord nbits w = some i) :
    ∃ rest, decode .default [(tableWordBytes nbits w).1, (tableWordBytes nbits w).2] = .ok (i, rest) := by
  simp only [decodeTableWord] at h
  split at h
  next j rest hd =>
    cases h
    exact ⟨rest, hd⟩
  next => cases h

end Sys2Proof

namespace Sys2Proof.Machine

open Sys2Proof.Statement

/-! ### The fetch of the bytes at `pc` -/

/-- Where the bytes at `pc` decode, and the operand an F2 form reads has an address, the fetch answers what they decode to. -/
theorem fetch_of_decode {s : State} {i : Instr} {rest : List Byte}
    (h : decode s.config.opcodeMap (bytesAtPc s) = .ok (i, rest))
    (hc : (encode s.config.opcodeMap i).length = 1 ∨ CanAdvance s 1) : fetch s = .ok i := by
  rcases decode_ok_cases h with ⟨op, hnone, rfl, hbs⟩ | ⟨op, f, hf, hi, hbs⟩ | ⟨op, f, mk, imm8, hf, hmk, rfl, hbs⟩ <;>
    cases hbs
  · exact fetch_reserved hnone
  · exact decodeWith_f1 hf hi _
  · rw [encode_f2 hmk] at hc
    have hadv : CanAdvance s 1 := hc.resolve_left (by simp)
    rw [fetch, decodeWith_f2 hf hmk, fetchOperand_of_canAdvance hadv]
    rfl

theorem step_of_decode {s : State} {i : Instr} {rest : List Byte}
    (h : decode s.config.opcodeMap (bytesAtPc s) = .ok (i, rest))
    (hc : (encode s.config.opcodeMap i).length = 1 ∨ CanAdvance s 1) : step s = exec i s := by
  rw [step, fetch_of_decode h hc]

/-! ### A table word placed at `pc` -/

theorem placeWord_of_canAdvance {s : State} (h : CanAdvance s 1) (nbits w : Nat) :
    placeWord s nbits w = { s with
      mem := (s.mem.write s.pc (tableWordBytes nbits w).1).write (s.pc + 1) (tableWordBytes nbits w).2 } := by
  have hpc : bits8 (uint s.pc + 1) = s.pc + 1 := nextPc_eq_add s 1
  simp only [placeWord, seqAddr_ok h, hpc]

theorem placeWord_of_cannotAdvance {s : State} (h : CannotAdvance s 1) (nbits w : Nat) :
    placeWord s nbits w = { s with mem := s.mem.write s.pc (tableWordBytes nbits w).1 } := by
  obtain ⟨hpast, hfault⟩ := h
  simp only [placeWord, seqAddr_error hpast hfault]

theorem bytesAtPc_placeWord_of_canAdvance {s : State} (hwf : s.mem.wf = true) (h : CanAdvance s 1) (nbits w : Nat) :
    bytesAtPc (placeWord s nbits w) = [(tableWordBytes nbits w).1, (tableWordBytes nbits w).2] := by
  have hne : s.pc ≠ s.pc + 1 := by bv_omega
  rw [placeWord_of_canAdvance h, bytesAtPc, Memory.read_write (Memory.write_wf hwf _ _), if_neg hne,
    Memory.read_write hwf, if_pos rfl, Memory.read_write (Memory.write_wf hwf _ _), if_pos rfl]

theorem bytesAtPc_placeWord_of_cannotAdvance {s : State} (hwf : s.mem.wf = true) (h : CannotAdvance s 1) (nbits w : Nat) :
    ∃ b, bytesAtPc (placeWord s nbits w) = [(tableWordBytes nbits w).1, b] := by
  refine ⟨(s.mem.write s.pc (tableWordBytes nbits w).1).read (s.pc + 1), ?_⟩
  simp only [placeWord_of_cannotAdvance h, bytesAtPc, Memory.read_write hwf s.pc _ s.pc, if_pos]

/-- A placed word decodes where the next step fetches: where its second byte has no place, the word's instruction has 1 byte. -/
theorem decode_bytesAtPc_placeWord {s : State} {nbits w : Nat} {i : Instr} (hwf : s.mem.wf = true)
    (hi : decodeTableWord nbits w = some i) (hc : (encode .default i).length = 1 ∨ CanAdvance s 1) :
    ∃ rest, decode .default (bytesAtPc (placeWord s nbits w)) = .ok (i, rest) := by
  obtain ⟨rest, hd⟩ := decode_of_decodeTableWord hi
  by_cases hadv : CanAdvance s 1
  · rw [bytesAtPc_placeWord_of_canAdvance hwf hadv]
    exact ⟨rest, hd⟩
  · have hpast : CannotAdvance s 1 := not_not.1 (mt (canAdvance_iff s 1).2 hadv)
    obtain ⟨b, hbytes⟩ := bytesAtPc_placeWord_of_cannotAdvance hwf hpast nbits w
    rw [hbytes]
    exact ⟨[b], decode_of_decode_of_length_one OpcodeMap.default_injective hd (hc.resolve_right hadv)⟩

end Sys2Proof.Machine
end

section
/-! The statements about decoding, encoding and the fetched instruction. -/

namespace Sys2Proof.Proofs

open Sys2Proof.Machine Sys2Proof.Statement

/-- Settles O28, by the format that makes the instruction; an injective map gives a form's byte back to that form. -/
theorem decodeOfEncode : Obligations.DecodeOfEncode := fun _ hinj _ rest hi => decode_encode hinj hi rest

/-- Settles O29, by the three answers the decoder gives; the byte decoded is the selected form's even where the map is not
injective. -/
theorem encodeOfDecode : Obligations.EncodeOfDecode := fun _ _ _ _ => wellFormed_and_encode_of_decode

/-- Settles O30. The fetch is the decoder on the bytes at `pc`, its operand read only for an F2 form. -/
theorem stepRunsTheDecodedInstruction : Obligations.StepRunsTheDecodedInstruction := fun _ _ _ => step_of_decode

/-- Settles O31. The word's bytes stand at `pc` and, where it has an address, `pc + 1`, and placing them changes memory alone. -/
theorem placedWordRunsNext : Obligations.PlacedWordRunsNext := by
  intro s nbits w i hmap hwf hi hc
  obtain ⟨rest, hd⟩ := decode_bytesAtPc_placeWord hwf hi hc
  obtain ⟨m, hframe⟩ := placeWord_frame s nbits w
  rw [State.withFetchWord]
  rw [hframe] at hd ⊢
  rw [← hmap] at hd hc
  exact step_of_decode hd hc

/-- Settles O27. Each word begins with the byte of its form in the default map; `0x13` is past the last of them. -/
theorem wordsOfTheDefaultMapDecode : Obligations.WordsOfTheDefaultMapDecode :=
  ⟨decode_default_f1 (f := .nop) rfl [], decode_default_f2 (f := .movAccCte) rfl 0x64 [],
    decode_default_f1 (f := .addAccA) rfl [], decode_default_f2 (f := .call) rfl 0x08 [],
    decode_reserved ((OpcodeMap.default_selectsNone_iff 0x13).2 (by decide)) [],
    decode_f2_noOperand (OpcodeMap.default_injective.formOf_code .jmp) rfl⟩

/-- Settles O57. The default map leaves over the bytes from `0x13` on. -/
theorem reservedByteDecodesAlone : Obligations.ReservedByteDecodesAlone :=
  ⟨fun _ _ rest h => decode_reserved h rest,
    fun op rest h => decode_reserved ((OpcodeMap.default_selectsNone_iff op).2 h) rest⟩

end Sys2Proof.Proofs
end

section
/-! SUPPORT. What the writes of an instruction keep of the machine's invariant, and every field they leave alone. -/

namespace Sys2Proof.Machine

open Sys2Proof.Safety Sys2Proof.Statement

/-! ### The fields an instruction leaves alone (R23, R31, R37) -/

theorem writesOf_config (i : Instr) (s : State) : (writesOf i s).config = s.config := by cases i <;> rfl

theorem writesOf_mem {i : Instr} (hi : i ≠ .movAtDptrAcc) (s : State) : (writesOf i s).mem = s.mem := by
  cases i with
  | movAtDptrAcc => exact absurd rfl hi
  | _ => rfl

theorem writesOf_stack {i : Instr} (hret : i ≠ .ret) (hcall : ∀ imm8, i ≠ .call imm8) (s : State) :
    (writesOf i s).stack = s.stack := by
  cases i with
  | ret => exact absurd rfl hret
  | call imm8 => exact absurd rfl (hcall imm8)
  | _ => rfl

theorem writesOf_acc {i : Instr} (hcte : ∀ imm8, i ≠ .movAccCte imm8) (hmov : i ≠ .movAccA) (hload : i ≠ .movAccAtDptr)
    (hinv : i ≠ .invAcc) (hand : i ≠ .andAccA) (hadd : i ≠ .addAccA) (hshl : i ≠ .shlAcc) (hshr : i ≠ .shrAcc)
    (s : State) : (writesOf i s).acc = s.acc := by
  cases i with
  | movAccCte imm8 => exact absurd rfl (hcte imm8)
  | movAccA => exact absurd rfl hmov
  | movAccAtDptr => exact absurd rfl hload
  | invAcc => exact absurd rfl hinv
  | andAccA => exact absurd rfl hand
  | addAccA => exact absurd rfl hadd
  | shlAcc => exact absurd rfl hshl
  | shrAcc => exact absurd rfl hshr
  | _ => rfl

/-! ### The bound of the call stack (R31) -/

theorem stackInv_iff (s : State) :
    StackInv s ↔ ∀ depth, s.config.stackDepth = .bounded depth → s.stack.length ≤ depth := by
  unfold StackInv
  cases s.config.stackDepth with
  | unbounded => simp
  | bounded depth => simp

/-- The bound holds of every stack that is no longer. -/
theorem stackInv_of_length_le {s t : State} (hs : StackInv s) (hc : t.config = s.config)
    (hlen : t.stack.length ≤ s.stack.length) : StackInv t :=
  (stackInv_iff t).2 fun depth hd => hlen.trans ((stackInv_iff s).1 hs depth (hc ▸ hd))

/-- CALL raises no fault only where its stack is below the bound, so the entry it pushes has a place. -/
theorem writesOf_call_stackInv {imm8 : Byte} {s : State} (hs : StackInv s) (hf : faultOf (.call imm8) s = none) :
    StackInv (writesOf (.call imm8) s) := by
  have hroom : s.config.stackDepth ≠ .bounded s.stack.length := by
    intro hfull
    rw [faultOf_call, if_pos hfull] at hf
    split at hf <;> cases hf
  refine (stackInv_iff _).2 fun depth hd => ?_
  have hle : s.stack.length ≤ depth := (stackInv_iff s).1 hs depth hd
  have hne : s.stack.length ≠ depth := fun e => hroom (e ▸ hd)
  exact Nat.lt_of_le_of_ne hle hne

theorem writesOf_stackInv {i : Instr} {s : State} (hs : StackInv s) (hf : faultOf i s = none) :
    StackInv (writesOf i s) := by
  cases i with
  | call imm8 => exact writesOf_call_stackInv hs hf
  | ret => exact stackInv_of_length_le hs rfl (by rw [writesOf_ret, List.length_tail]; exact Nat.sub_le _ 1)
  | _ => exact hs

/-! ### The invariant (R7, R110) -/

theorem writesOf_wf {s : State} (h : s.mem.wf = true) (i : Instr) : (writesOf i s).mem.wf = true := by
  cases i with
  | movAtDptrAcc => exact Memory.write_wf h _ _
  | _ => exact h

/-- A fault keeps all the invariant speaks of; an instruction without a fault keeps each part by its writes, and the commit
makes the flags anew. -/
theorem step_machineInv {s t : State} (hs : MachineInv s) (h : step s = .next t) : MachineInv t := by
  rcases step_next_cases h with ⟨kind, -, rfl⟩ | ⟨i, hfetch, hfault, rfl⟩
  · exact hs
  · obtain ⟨hconfig, hmem, -, hstack⟩ := hs
    have hnone : faultOf i s = none := (firstFault_of_fetch_ok hfetch).symm.trans hfault
    have hconfig' : (committed (writesOf i s)).config.WellFormed := (writesOf_config i s).symm ▸ hconfig
    exact ⟨hconfig', writesOf_wf hmem i, committed_flagInv _, writesOf_stackInv hstack hnone⟩

theorem Config.default_wellFormed : Config.default.WellFormed := ⟨OpcodeMap.default_injective, nofun⟩

theorem created_flagInv (c : Config) : FlagInv (State.created c) :=
  ⟨rfl, show false = signTest 0x00 by decide⟩

theorem created_machineInv {c : Config} (hc : c.WellFormed) : MachineInv (State.created c) :=
  ⟨hc, Memory.empty_wf, created_flagInv c, (stackInv_iff _).2 fun depth _ => Nat.zero_le depth⟩

theorem loadProgram_machineInv {image : List Byte} {s t : State} (hs : MachineInv s) (h : loadProgram image s = .ok t) :
    MachineInv t := by
  obtain ⟨hconfig, hmem, hflags, hstack⟩ := hs
  rcases loadProgram_cases image s with ⟨n, -, hl⟩ | ⟨-, hl⟩ <;> rw [hl] at h <;> cases h
  exact ⟨hconfig, Memory.writeFrom_wf image 0 hmem, hflags, hstack⟩

theorem loadProgram_flagInv {image : List Byte} {s t : State} (hs : FlagInv s) (h : loadProgram image s = .ok t) :
    FlagInv t := by
  rcases loadProgram_cases image s with ⟨n, -, hl⟩ | ⟨-, hl⟩ <;> rw [hl] at h <;> cases h
  exact hs

/-! ### The host's operations -/

/-- What Reset, a load that succeeds and a step keep, every operation of the host keeps: a load that fails changes nothing. -/
theorem applyHostOp_keeps {P : State → Prop} (hreset : ∀ s, P s → P (hostReset s))
    (hload : ∀ image s t, P s → loadProgram image s = .ok t → P t) (hstep : ∀ s t, P s → step s = .next t → P t)
    (op : HostOp) {s : State} (hs : P s) : P (applyHostOp op s) := by
  cases op with
  | reset => exact hreset s hs
  | load image =>
    cases hl : loadProgram image s with
    | error e => rwa [applyHostOp_load_of_error hl]
    | ok t => rw [applyHostOp, hl]; exact hload image s t hs hl
  | step =>
    obtain ⟨t, ht⟩ := step_next s
    rw [applyHostOp, ht]
    exact hstep s t hs ht

/-- What every operation of the host keeps, every sequence of them keeps. -/
theorem runHostOps_keeps {P : State → Prop} (hop : ∀ op s, P s → P (applyHostOp op s)) (ops : List HostOp) {s : State}
    (hs : P s) : P (runHostOps ops s) := by
  induction ops generalizing s with
  | nil => exact hs
  | cons op ops ih => exact ih (hop op s hs)

theorem applyHostOp_machineInv (op : HostOp) {s : State} (hs : MachineInv s) : MachineInv (applyHostOp op s) := by
  refine applyHostOp_keeps (P := fun u => MachineInv u) (fun u ⟨hconfig, _⟩ => ?_) (fun _ _ _ => loadProgram_machineInv)
    (fun _ _ => step_machineInv) op hs
  exact created_machineInv hconfig

theorem applyHostOp_flagInv (op : HostOp) {s : State} (hs : FlagInv s) : FlagInv (applyHostOp op s) :=
  applyHostOp_keeps (P := fun u => FlagInv u) (fun u _ => created_flagInv u.config) (fun _ _ _ => loadProgram_flagInv)
    (fun _ _ => step_flagInv) op hs

/-! ### A step repeated after a fault (R108) -/

theorem step_faulted_of_step {s t : State} {kind : Fault} (h : step s = .next t) (hs : t.status = .faulted kind) :
    step t = .next t := by
  have ht : t = Faulted kind s := eq_faulted_of_step h hs
  calc step t = step s := by rw [ht]; exact step_withStatus s _
    _ = .next t := h

/-! ### Canonical memory (log entry 6) -/

/-- The first pair of a canonical list is read back at its address. -/
theorem Memory.lookup_head (j : Nat) (w : Byte) (rest : List Host.Cell) : Memory.lookup j ((j, w) :: rest) = w :=
  if_pos rfl

theorem Memory.canonicalFrom_cons_iff {lo j : Nat} {w : Byte} {rest : List Host.Cell} :
    Memory.canonicalFrom lo ((j, w) :: rest) = true ↔
      lo ≤ j ∧ j < 256 ∧ w ≠ Memory.unlisted ∧ Memory.canonicalFrom (j + 1) rest = true := by
  simp [Memory.canonicalFrom, and_assoc]

/-- At the address of a canonical list's first pair, a list canonical from the next address on reads otherwise. -/
theorem Memory.lookup_head_ne {lo j : Nat} {w : Byte} {rest cells : List Host.Cell}
    (h : Memory.canonicalFrom lo ((j, w) :: rest) = true) (hcells : Memory.canonicalFrom (j + 1) cells = true) :
    Memory.lookup j ((j, w) :: rest) ≠ Memory.lookup j cells := by
  obtain ⟨-, -, hw, -⟩ := Memory.canonicalFrom_cons_iff.1 h
  rwa [Memory.lookup_head, Memory.lookup_below hcells (Nat.lt_succ_self j)]

/-- By induction on both lists: the pair with the lower first address would be read in one list alone, so the first pairs agree,
and past them the tails read alike. -/
theorem Memory.cells_eq_of_lookup_eq : ∀ {c₁ c₂ : List Host.Cell} {lo : Nat},
    Memory.canonicalFrom lo c₁ = true → Memory.canonicalFrom lo c₂ = true →
    (∀ k < 256, Memory.lookup k c₁ = Memory.lookup k c₂) → c₁ = c₂
  | [], [], _, _, _, _ => rfl
  | [], (j, w) :: rest, lo, _, h₂, heq => by
    obtain ⟨-, hj, -, -⟩ := Memory.canonicalFrom_cons_iff.1 h₂
    exact absurd (heq j hj).symm (Memory.lookup_head_ne h₂ rfl)
  | (j, w) :: rest, [], lo, h₁, _, heq => by
    obtain ⟨-, hj, -, -⟩ := Memory.canonicalFrom_cons_iff.1 h₁
    exact absurd (heq j hj) (Memory.lookup_head_ne h₁ rfl)
  | (j₁, w₁) :: r₁, (j₂, w₂) :: r₂, lo, h₁, h₂, heq => by
    obtain ⟨-, hj₁, hw₁, hr₁⟩ := Memory.canonicalFrom_cons_iff.1 h₁
    obtain ⟨-, hj₂, hw₂, hr₂⟩ := Memory.canonicalFrom_cons_iff.1 h₂
    rcases Nat.lt_trichotomy j₁ j₂ with hlt | rfl | hlt
    · have h₂' := Memory.canonicalFrom_cons_iff.2 ⟨Nat.succ_le_of_lt hlt, hj₂, hw₂, hr₂⟩
      exact absurd (heq j₁ hj₁) (Memory.lookup_head_ne h₁ h₂')
    · have hw : w₁ = w₂ := by simpa only [Memory.lookup_head] using heq j₁ hj₁
      have htail : ∀ k < 256, Memory.lookup k r₁ = Memory.lookup k r₂ := by
        intro k hk
        by_cases hkj : j₁ = k
        · have hlt : k < j₁ + 1 := hkj ▸ Nat.lt_succ_self j₁
          rw [Memory.lookup_below hr₁ hlt, Memory.lookup_below hr₂ hlt]
        · simpa only [Memory.lookup, if_neg hkj] using heq k hk
      rw [hw, Memory.cells_eq_of_lookup_eq hr₁ hr₂ htail]
    · have h₁' := Memory.canonicalFrom_cons_iff.2 ⟨Nat.succ_le_of_lt hlt, hj₁, hw₁, hr₁⟩
      exact absurd (heq j₂ hj₂).symm (Memory.lookup_head_ne h₂ h₁')

theorem Memory.eq_of_read_eq {m₁ m₂ : Memory} (h₁ : m₁.wf = true) (h₂ : m₂.wf = true)
    (heq : ∀ addr, m₁.read addr = m₂.read addr) : m₁ = m₂ := by
  have hlookup : ∀ k < 256, Memory.lookup k m₁.cells = Memory.lookup k m₂.cells := by
    intro k hk
    have hread := heq (bits8 k)
    rwa [Memory.read, Memory.read, uint_bits8_of_le (Nat.le_of_lt_succ hk)] at hread
  have hcells : m₁.cells = m₂.cells := Memory.cells_eq_of_lookup_eq h₁ h₂ hlookup
  exact congrArg Memory.mk hcells

end Sys2Proof.Machine
end

section
/-! The statements about what every step and every operation of the host keeps. -/

namespace Sys2Proof.Proofs

open Sys2Proof.Machine Sys2Proof.Safety Sys2Proof.Statement

/-- Settles O45, by the two answers of a step. -/
theorem stepKeepsInv : Obligations.StepKeepsInv := fun _ _ => step_machineInv

/-- Settles O46: the created state has empty memory and an empty stack, and the default parameters are legal. -/
theorem invHoldsAtReset : Obligations.InvHoldsAtReset :=
  ⟨fun _ => created_machineInv, created_machineInv Config.default_wellFormed⟩

/-- Settles O47: Reset is the created state with the same parameters, and a load keeps memory canonical byte by byte. -/
theorem hostOperationsKeepInv : Obligations.HostOperationsKeepInv := fun op _ => applyHostOp_machineInv op

/-- Settles O48, by induction on the operations: the flag invariant needs no other part of the machine's invariant. -/
theorem flagsAreFunctionsOfAcc : Obligations.FlagsAreFunctionsOfAcc := fun c ops =>
  runHostOps_keeps (P := fun s => FlagInv s) (fun op _ => applyHostOp_flagInv op) ops (created_flagInv c)

/-- Settles O33. No step reads `status`, and a fault changes nothing else. -/
theorem repeatedStepFaultsIdentically : Obligations.RepeatedStepFaultsIdentically :=
  ⟨step_withStatus, fun _ _ _ h hs => ⟨eq_faulted_of_step h hs, step_faulted_of_step h hs⟩⟩

/-- Settles O38, from the writes of each instruction; a fault leaves all of these fields. -/
theorem everyOtherInstructionLeavesTheRest : Obligations.EveryOtherInstructionLeavesTheRest := by
  intro i s t h
  rcases exec_next_cases h with ⟨kind, -, rfl⟩ | ⟨-, rfl⟩
  · exact ⟨fun _ _ => rfl, fun _ _ => rfl, fun _ _ _ _ _ _ _ _ => rfl, rfl, rfl⟩
  · refine ⟨fun hi addr => congrArg (·.read addr) (writesOf_mem hi s), fun hret hcall => writesOf_stack hret hcall s,
      fun hcte hmov hload hinv hand hadd hshl hshr => ?_, writesOf_progSize i s, writesOf_config i s⟩
    exact writesOf_acc hcte hmov hload hinv hand hadd hshl hshr s

/-- Settles O50, by induction on the two lists of pairs. -/
theorem canonicalMemoryIsDeterminedByItsReads : Obligations.CanonicalMemoryIsDeterminedByItsReads :=
  fun _ _ => Memory.eq_of_read_eq

end Sys2Proof.Proofs
end

section
/-! SUPPORT. What an instruction that runs leaves, the signed reading of the ALU's operations, and a byte fetched after it is
stored. -/

namespace Sys2Proof.Machine

open Sys2Proof.Statement

theorem eq_committed_of_running {i : Instr} {s t : State} (h : exec i s = .next t) (hr : t.status = .running) :
    t = committed (writesOf i s) := by
  rcases exec_next_cases h with ⟨kind, -, rfl⟩ | ⟨-, ht⟩
  · cases hr
  · exact ht

/-! ### The signed reading (R9, R144) -/

/-- R144's comparison of signs is the library's signed overflow. -/
theorem addOverflow_add8 (a b : Byte) : addOverflow a b (add8 a b) = a.saddOverflow b := by
  rw [addOverflow_eq_msb, add8_eq_add, BitVec.saddOverflow_eq]
  rfl

theorem addOverflow_iff_signed_out_of_range (a b : Byte) :
    addOverflow a b (add8 a b) = true ↔ sint a + sint b < -128 ∨ 127 < sint a + sint b := by
  rw [addOverflow_add8, BitVec.saddOverflow, Bool.or_eq_true, decide_eq_true_iff, decide_eq_true_iff]
  unfold sint
  norm_num
  omega

theorem execAdd_ovf_iff {s t : State} (h : exec .addAccA s = .next t) (hr : t.status = .running) :
    t.ovf = true ↔ sint s.acc + sint s.a < -128 ∨ 127 < sint s.acc + sint s.a := by
  rw [eq_committed_of_running h hr]
  exact addOverflow_iff_signed_out_of_range s.acc s.a

theorem sint_bounds (v : Byte) : -128 ≤ sint v ∧ sint v ≤ 127 := ⟨v.le_toInt, Int.le_of_lt_add_one v.toInt_lt⟩

/-- Addition modulo 256 does not depend on the reading of its operands. -/
theorem add8_eq_ofInt (a b : Byte) : add8 a b = BitVec.ofInt 8 (sint a + sint b) := by
  rw [BitVec.ofInt_add, BitVec.ofInt_toInt, BitVec.ofInt_toInt, add8_eq_add]

theorem sint_not8 (v : Byte) : sint (not8 v) = -sint v - 1 := by
  have hlt : v.toNat < 256 := v.isLt
  rw [not8, sint, sint, BitVec.toInt_eq_toNat_cond, BitVec.toInt_eq_toNat_cond, BitVec.toNat_not]
  split <;> split <;> omega

/-- INV and ADD of 1 form the two's-complement negation (G2). -/
theorem add8_not8_one (b : Byte) : add8 (not8 b) 0x01 = -b :=
  (add8_eq_add (not8 b) 0x01).trans (BitVec.neg_eq_not_add b).symm

theorem add_neg_eq_bits8 (a b : Byte) : a + -b = bits8 (uint a + 256 - uint b) := by
  apply BitVec.eq_of_toNat_eq
  have hb : b.toNat < 256 := b.isLt
  rw [BitVec.toNat_add, BitVec.toNat_neg, BitVec.toNat_ofNat, uint, uint]
  omega

/-! ### A store and the fetch after it (R61, R127) -/

theorem mem_of_execMovAtDptrAcc {s t : State} (h : exec .movAtDptrAcc s = .next t) (hr : t.status = .running) :
    t.mem = s.mem.write s.dptr s.acc := by
  rw [eq_committed_of_running h hr]
  rfl

theorem read_dptr_of_execMovAtDptrAcc {s t : State} (hwf : s.mem.wf = true) (h : exec .movAtDptrAcc s = .next t)
    (hr : t.status = .running) : t.mem.read s.dptr = s.acc := by
  rw [mem_of_execMovAtDptrAcc h hr, Memory.read_write hwf, if_pos rfl]

/-! ### RET after CALL (R165, R166) -/

/-- The state a RET leaves where it follows a CALL that ran. -/
theorem exec_ret_of_exec_call {imm8 : Byte} {s t : State} (h : exec (.call imm8) s = .next t) (hr : t.status = .running) :
    exec .ret t = .next (Done { t with pc := s.pc + 2, stack := s.stack }) := by
  have hret : nextPc s 2 = s.pc + 2 := nextPc_eq_add s 2
  have hstack : t.stack = (s.pc + 2) :: s.stack := by
    rw [eq_committed_of_running h hr, ← hret]
    rfl
  exact exec_ret_of_cons hstack

end Sys2Proof.Machine
end

section
/-! The statements that the spec infers about a store, the ALU and the call stack. -/

namespace Sys2Proof.Proofs

open Sys2Proof.Machine Sys2Proof.Statement

/-- Settles O8. Both fetches read memory at the stored address, where canonical memory reads back the byte written. -/
theorem storedByteIsFetchedNext : Obligations.StoredByteIsFetchedNext := by
  intro s t hwf hs h hr u hu
  have hexec : exec .movAtDptrAcc s = .next t := (step_of_atForm_f1 hs rfl).symm.trans h
  have hread : u.mem.read s.dptr = s.acc := by rw [hu, read_dptr_of_execMovAtDptrAcc hwf hexec hr]
  refine ⟨fun hpc => ?_, fun hc hpc => ?_⟩
  · rw [fetch, hpc, hread]
  · rw [fetchOperand_of_canAdvance hc, hpc, hread]

/-- Settles O12. ADD commits the comparison of signs together with the sum it compares. -/
theorem overflowIsTheComparisonOfSigns : Obligations.OverflowIsTheComparisonOfSigns := by
  refine ⟨fun s t h hr => ?_, fun _ _ _ => exec_ovf⟩
  have hacc : t.acc = add8 s.acc s.a := by rw [eq_committed_of_running h hr]; rfl
  have hovf : t.ovf = addOverflow s.acc s.a (add8 s.acc s.a) := by rw [eq_committed_of_running h hr]; rfl
  rw [hovf, hacc, addOverflow, Bool.and_eq_true, beq_iff_eq, bne_iff_ne]

/-- Settles O13. The comparison of signs detects exactly a signed sum out of range. -/
theorem overflowIsASignedSumOutOfRange : Obligations.OverflowIsASignedSumOutOfRange :=
  ⟨fun _ _ => execAdd_ovf_iff, add8_eq_ofInt⟩

/-- Settles O14. The signed sum of such operands stays between the two of them, hence in range. -/
theorem oppositeSignsOrZeroNeverOverflow : Obligations.OppositeSignsOrZeroNeverOverflow := by
  intro s t h hr hsigns
  obtain ⟨hacclo, hacchi⟩ := sint_bounds s.acc
  obtain ⟨halo, hahi⟩ := sint_bounds s.a
  rw [← Bool.not_eq_true, execAdd_ovf_iff h hr]
  rcases hsigns with ⟨haccneg, hanonneg⟩ | ⟨haccnonneg, haneg⟩ | ha
  · omega
  · omega
  · have hzero : sint s.a = 0 := congrArg sint ha
    omega

/-- Settles O15. The complement is the negation less 1, so the idiom adds the negation. -/
theorem invertAndAddOneNegates : Obligations.InvertAndAddOneNegates := by
  refine ⟨sint_not8, fun a b => ?_⟩
  rw [add8_not8_one, add8_eq_add, add_neg_eq_bits8]

/-- Settles O24. CALL writes `pc` and the stack alone, and RET puts both back but for the 2 bytes of the CALL. -/
theorem retUndoesCall : Obligations.RetUndoesCall := by
  intro imm8 s t u h hr hu
  rw [exec_ret_of_exec_call h hr, eq_committed_of_running h hr] at hu
  cases hu
  rfl

end Sys2Proof.Proofs
end

section
/-! SUPPORT. A run split at its first step, and what the two passes of the assembler keep. -/

namespace Sys2Proof.Machine

open Sys2Proof.Safety Sys2Proof.Statement

/-! ### Runs (R207) -/

theorem run_succ_of_step {M : Host.Core} {s v : M.State} (h : M.step s = .next v) (k : Nat) :
    M.run (k + 1) s = M.run k v := by
  rw [Host.Core.run, h]

theorem core_run_succ {s v : State} (h : step s = .next v) (k : Nat) : core.run (k + 1) s = core.run k v :=
  run_succ_of_step (M := core) h k

theorem ranThrough_zero (s : State) : RanThrough 0 s s := ⟨rfl, nofun⟩

/-- A run of `k + 1` steps is its first step, which ran, and a run of `k` steps from the state that step leaves. -/
theorem ranThrough_succ_iff {k : Nat} {s u : State} :
    RanThrough (k + 1) s u ↔ ∃ v, step s = .next v ∧ v.status = .running ∧ RanThrough k v u := by
  obtain ⟨v, hv⟩ := step_next s
  have hrun : ∀ j, core.run (j + 1) s = core.run j v := core_run_succ hv
  constructor
  · rintro ⟨hend, hall⟩
    obtain ⟨w, hw, hrunning⟩ := hall 0 (Nat.zero_lt_succ k)
    rw [hrun 0] at hw
    cases hw
    refine ⟨v, hv, hrunning, (hrun k).symm.trans hend, fun j hj => ?_⟩
    rw [← hrun (j + 1)]
    exact hall (j + 1) (Nat.succ_lt_succ hj)
  · rintro ⟨w, hw, hrunning, hend, hall⟩
    obtain rfl : v = w := by rw [hv] at hw; cases hw; rfl
    refine ⟨(hrun k).trans hend, fun j hj => ?_⟩
    rw [hrun j]
    cases j with
    | zero => exact ⟨v, rfl, hrunning⟩
    | succ j => exact hall j (Nat.lt_of_succ_lt_succ hj)

theorem runToEnd_of_faulted {s t : State} {kind : Fault} (h : step s = .next t) (hs : t.status = .faulted kind)
    (fuel : Nat) : runToEnd (fuel + 1) s = some t := by
  simp only [runToEnd, h, isFaulted, hs, if_true]

theorem runToEnd_of_running {s t : State} (h : step s = .next t) (hr : t.status = .running) (fuel : Nat) :
    runToEnd (fuel + 1) s = runToEnd fuel t := by
  simp only [runToEnd, h, isFaulted, hr, Bool.false_eq_true, if_false]

/-- A run that reaches its end runs `k` steps, fewer than its fuel, and ends with the step after them, which faults. -/
theorem ranThrough_of_runToEnd {fuel : Nat} {s t : State} (h : runToEnd fuel s = some t) :
    ∃ k before kind, k < fuel ∧ RanThrough k s before ∧ step before = .next t ∧ t.status = .faulted kind := by
  induction fuel generalizing s with
  | zero => cases h
  | succ fuel ih =>
    obtain ⟨v, hv⟩ := step_next s
    cases hstatus : v.status with
    | faulted kind =>
      rw [runToEnd_of_faulted hv hstatus] at h
      cases h
      exact ⟨0, s, kind, Nat.zero_lt_succ fuel, ranThrough_zero s, hv, hstatus⟩
    | running =>
      rw [runToEnd_of_running hv hstatus] at h
      obtain ⟨k, before, kind, hk, hran, hstep, hfaulted⟩ := ih h
      exact ⟨k + 1, before, kind, Nat.succ_lt_succ hk, ranThrough_succ_iff.2 ⟨v, hv, hstatus, hran⟩, hstep, hfaulted⟩

theorem runToEnd_of_ranThrough {fuel k : Nat} {s before t : State} {kind : Fault} (hk : k < fuel)
    (hran : RanThrough k s before) (hstep : step before = .next t) (hs : t.status = .faulted kind) :
    runToEnd fuel s = some t := by
  induction fuel generalizing k s with
  | zero => exact absurd hk (Nat.not_lt_zero k)
  | succ fuel ih =>
    cases k with
    | zero =>
      obtain ⟨hsame, -⟩ := hran
      cases hsame
      exact runToEnd_of_faulted hstep hs fuel
    | succ k =>
      obtain ⟨v, hv, hrunning, hran'⟩ := ranThrough_succ_iff.1 hran
      rw [runToEnd_of_running hv hrunning]
      exact ih (Nat.lt_of_succ_lt_succ hk) hran'

/-! ### The passes of the assembler (R82, R85) -/

theorem passTwo_length {labels : List (Text × Nat)} {relocs : List (Nat × Text)} {image out : List Byte}
    (h : passTwo labels relocs image = .ok out) : out.length = image.length := by
  induction relocs generalizing image with
  | nil => cases h; rfl
  | cons reloc rest ih =>
    rw [passTwo] at h
    split at h
    · cases h
    · rw [ih h, List.length_set]

theorem emitItem_labels (m : OpcodeMap) (item : Item) (s : Asm) : (emitItem m item s).labels = s.labels := by
  cases item <;> rfl

/-- A label that is declared gets the address of the next byte, which is at most 255. -/
theorem declareLabel_ok {line : Nat} {name : Text} {s t : Asm} (h : declareLabel line name s = .ok t) :
    s.image.length ≤ 255 ∧ t.labels = (name, s.image.length) :: s.labels := by
  unfold declareLabel at h
  split at h
  · cases h
  · split at h
    · cases h
    · split at h
      next hle => cases h; exact ⟨hle, rfl⟩
      next => cases h

/-- A line keeps the labels, or puts the one it declares before them. -/
theorem assembleLine_labels {m : OpcodeMap} {line : Nat} {t : Text} {s s' : Asm}
    (h : assembleLine m line t s = .ok s') :
    s'.labels = s.labels ∨ ∃ name, s.image.length ≤ 255 ∧ s'.labels = (name, s.image.length) :: s.labels := by
  unfold assembleLine at h
  simp only at h
  split at h
  next => cases h
  next s₁ hlabel =>
    have hs₁ : s₁.labels = s.labels ∨
        ∃ name, s.image.length ≤ 255 ∧ s₁.labels = (name, s.image.length) :: s.labels := by
      split at hlabel
      · cases hlabel; exact .inl rfl
      next name _ => exact .inr ⟨name, declareLabel_ok hlabel⟩
    split at h
    · cases h
    · cases h; exact hs₁
    · cases h; rwa [emitItem_labels]

/-- Every label collected so far is an address (R85). -/
def LabelsFit (s : Asm) : Prop := ∀ name v, (name, v) ∈ s.labels → v ≤ 255

theorem assembleLine_labelsFit {m : OpcodeMap} {line : Nat} {t : Text} {s s' : Asm} (hs : LabelsFit s)
    (h : assembleLine m line t s = .ok s') : LabelsFit s' := by
  intro name v hmem
  rcases assembleLine_labels h with hlabels | ⟨declared, hle, hlabels⟩ <;> rw [hlabels] at hmem
  · exact hs name v hmem
  · rcases List.mem_cons.1 hmem with heq | hold
    · cases heq
      exact hle
    · exact hs name v hold

theorem passOne_labelsFit {m : OpcodeMap} {line : Nat} {ts : List Text} {s s' : Asm} (hs : LabelsFit s)
    (h : passOne m line ts s = .ok s') : LabelsFit s' := by
  induction ts generalizing line s with
  | nil => cases h; exact hs
  | cons t ts ih =>
    rw [passOne] at h
    split at h
    · cases h
    next s₁ hline => exact ih (assembleLine_labelsFit hs hline) h

/-- Everything the assembler answers: the error of pass 1, pass 2 on an image that fits, or the error for one that does not. -/
theorem assemble_cases (m : OpcodeMap) (source : Text) :
    (∃ e, passOne m 1 (splitLines source) ⟨[], [], []⟩ = .error e ∧ assemble m source = .error e) ∨
    (∃ s, passOne m 1 (splitLines source) ⟨[], [], []⟩ = .ok s ∧
      ((s.image.length ≤ 256 ∧ assemble m source = passTwo s.labels s.relocs s.image) ∨
        (256 < s.image.length ∧ assemble m source = .error .imageTooLong))) := by
  unfold assemble
  cases passOne m 1 (splitLines source) ⟨[], [], []⟩ with
  | error e => exact .inl ⟨e, rfl, rfl⟩
  | ok s =>
    refine .inr ⟨s, rfl, ?_⟩
    by_cases hfits : s.image.length ≤ 256
    · exact .inl ⟨hfits, if_pos hfits⟩
    · exact .inr ⟨Nat.lt_of_not_le hfits, if_neg hfits⟩

theorem assemble_length_le {m : OpcodeMap} {source : Text} {image : List Byte} (h : assemble m source = .ok image) :
    image.length ≤ 256 := by
  rcases assemble_cases m source with ⟨e, -, he⟩ | ⟨s, -, ⟨hfits, htwo⟩ | ⟨-, hlong⟩⟩
  · rw [he] at h; cases h
  · rw [htwo] at h
    rwa [passTwo_length h]
  · rw [hlong] at h; cases h

theorem assemble_of_tooLong {m : OpcodeMap} {source : Text} {s : Asm}
    (h : passOne m 1 (splitLines source) ⟨[], [], []⟩ = .ok s) (hlong : 256 < s.image.length) :
    assemble m source = .error .imageTooLong := by
  rcases assemble_cases m source with ⟨e, he, -⟩ | ⟨u, hu, hcases⟩
  · rw [he] at h; cases h
  · rw [hu] at h
    cases h
    rcases hcases with ⟨hfits, -⟩ | ⟨-, herr⟩
    · exact absurd hfits (Nat.not_le_of_lt hlong)
    · exact herr

/-! ### Case (R80) -/

/-- Upper-casing neither makes nor removes a character that is no letter. -/
theorem toUpper_eq_iff {x : Char} (hx : x.isAlpha = false) (c : Char) : c.toUpper = x ↔ c = x := by
  have hsame {d : Char} (hd : d.isAlpha = false) : d.toUpper = d :=
    Char.toUpper_eq_of_not_isLower fun hlower => by simp [Char.isAlpha, hlower] at hd
  constructor
  · intro h
    have hc : c.isAlpha = false := by rw [← Char.isAlpha_toUpper_eq_isAlpha, h, hx]
    exact (hsame hc).symm.trans h
  · rintro rfl
    exact hsame hx

/-- No line feed is a letter, so lines are cut at the same places. -/
theorem splitLines_map_toUpper (source : Text) :
    splitLines (source.map Char.toUpper) = (splitLines source).map (·.map Char.toUpper) := by
  induction source with
  | nil => rfl
  | cons c cs ih =>
    simp only [List.map_cons, splitLines, toUpper_eq_iff (x := '\n') rfl, ih]
    by_cases hc : c = '\n'
    · simp only [if_pos hc, List.map_cons, List.map_nil]
    · cases splitLines cs <;> simp only [if_neg hc, List.map_cons, List.map_nil]

/-- A line is read in upper case, and what is removed from it before is no letter. -/
theorem cleanLine_map_toUpper (t : Text) : cleanLine (t.map Char.toUpper) = cleanLine t := by
  have hcomment : (fun c => decide (c ≠ ';')) ∘ Char.toUpper = fun c => decide (c ≠ ';') := by
    funext c
    simp only [Function.comp_apply, ne_eq, toUpper_eq_iff (x := ';') rfl]
  have hspace : (fun c => decide (c ≠ '\t' ∧ c ≠ '\r')) ∘ Char.toUpper = fun c => decide (c ≠ '\t' ∧ c ≠ '\r') := by
    funext c
    simp only [Function.comp_apply, ne_eq, toUpper_eq_iff (x := '\t') rfl, toUpper_eq_iff (x := '\r') rfl]
  have hupper : Char.toUpper ∘ Char.toUpper = Char.toUpper := funext Char.toUpper_toUpper_eq_toUpper
  rw [cleanLine, List.takeWhile_map, hcomment, List.filter_map, hspace, List.map_map, hupper, cleanLine]

theorem assembleLine_map_toUpper (m : OpcodeMap) (line : Nat) (t : Text) (s : Asm) :
    assembleLine m line (t.map Char.toUpper) s = assembleLine m line t s := by
  rw [assembleLine, cleanLine_map_toUpper, assembleLine]

theorem passOne_map_toUpper (m : OpcodeMap) (line : Nat) (ts : List Text) (s : Asm) :
    passOne m line (ts.map (·.map Char.toUpper)) s = passOne m line ts s := by
  induction ts generalizing line s with
  | nil => rfl
  | cons t ts ih => simp only [List.map_cons, passOne, assembleLine_map_toUpper, ih]

theorem assemble_map_toUpper (m : OpcodeMap) (source : Text) :
    assemble m (source.map Char.toUpper) = assemble m source := by
  rw [assemble, splitLines_map_toUpper, passOne_map_toUpper, assemble]

end Sys2Proof.Machine
end

section
/-! The statements about a run's end and about the assembler. -/

namespace Sys2Proof.Proofs

open Sys2Proof.Machine Sys2Proof.Safety Sys2Proof.Statement

/-- Settles O53, by induction on the fuel, one step at a time; that the end is final is the step repeated after a fault. -/
theorem runEndsAtTheFirstFault : Obligations.RunEndsAtTheFirstFault := by
  refine ⟨fun fuel s t h => ?_, fun _ _ _ _ _ _ => runToEnd_of_ranThrough⟩
  obtain ⟨k, before, kind, hk, hran, hstep, hs⟩ := ranThrough_of_runToEnd h
  exact ⟨⟨k, before, kind, hk, hran, hstep, eq_faulted_of_step hstep hs⟩, step_faulted_of_step hstep hs⟩

/-- Settles O55. Pass 2 overwrites bytes and adds none, and pass 1 declares a label only where its address exists. -/
theorem assembledImageFits : Obligations.AssembledImageFits :=
  ⟨fun _ _ _ => assemble_length_le,
    fun _ _ _ h => ⟨passOne_labelsFit (s := ⟨[], [], []⟩) nofun h, assemble_of_tooLong h⟩⟩

/-- Settles O56. The only characters looked at before a line is in upper case are no letters. -/
theorem assemblerIgnoresCase : Obligations.AssemblerIgnoresCase := assemble_map_toUpper

end Sys2Proof.Proofs
end
